-- ==== Sys2Proof/Word.lean ====
section
/-! DEFINITION. The value types of rule R9 (00_scope.md) and the reduction `wrap32` of rule R10. -/

namespace Sys2Proof

/-- `u8`, a memory byte (R9, R51). -/
abbrev Byte := BitVec 8

/-- `u24`, a memory word as read (R9, R55). -/
abbrev Word24 := BitVec 24

/-- `s32`, a register cell in 32-bit two's complement (R9, R22). -/
abbrev S32 := BitVec 32

/-- `wrap32(n)`, the `s32` congruent to the integer `n` modulo 2^32 (R10). -/
def wrap32 (n : Int) : S32 := BitVec.ofInt 32 n

end Sys2Proof
end

