-- ==== Sys2Proof/Syntax.lean ====
section
/-! DEFINITION. The 38 instructions of rule R86 (30_encoding.md) as data: one constructor of `Instr` for each row of
spec/opcode_table.json, with the fields its format gives it. Register numbers stay 4-bit numbers, because a number
outside the valid set is a halt of the instruction that uses it (R195), not an unknown instruction. -/

namespace Sys2Proof

/-- The address field of a format-3/4 instruction, as the integer rule R88 makes of it. -/
inductive AddrField where
  /-- Format 3 (e = 0): the signed displacement, in [-2048, 2047]. -/
  | disp (d : Int)
  /-- Format 4 (e = 1): the unsigned 20-bit address, in [0, 1048575]. -/
  | addr (a : Nat)
deriving DecidableEq, Repr

/-- The fields of a format-3/4 instruction (R82, R83): the flags n, i, x, b, p and the address field, whose
alternative is the e bit. Flags an instruction ignores (R132, R138) are kept as decoded. -/
structure Addressing where
  n : Bool
  i : Bool
  x : Bool
  b : Bool
  p : Bool
  field : AddrField
deriving DecidableEq, Repr

/-- An instruction (R86). `r1`, `r2` are the register-number nibbles and `c` the count nibble of format 2 (R84, R89);
`m` is a format-3/4 instruction's addressing. Ignored bits of formats 1 and 2 (R81, R84, R89) have no field. -/
inductive Instr where
  /-- RSUB, R171. -/
  | rsub
  /-- ADDR, R180. -/
  | addr (r1 r2 : BitVec 4)
  /-- SUBR, R181. -/
  | subr (r1 r2 : BitVec 4)
  /-- MULR, R182. -/
  | mulr (r1 r2 : BitVec 4)
  /-- DIVR, R183. -/
  | divr (r1 r2 : BitVec 4)
  /-- RMO, R187. -/
  | rmo (r1 r2 : BitVec 4)
  /-- COMPR, R188. -/
  | compr (r1 r2 : BitVec 4)
  /-- CLEAR, R191. -/
  | clear (r1 : BitVec 4)
  /-- SHIFTL, R192. -/
  | shiftl (r1 c : BitVec 4)
  /-- SHIFTR, R193. -/
  | shiftr (r1 c : BitVec 4)
  /-- TIXR, R194. -/
  | tixr (r1 : BitVec 4)
  /-- LDA, R210. -/
  | lda (m : Addressing)
  /-- LDX, R211. -/
  | ldx (m : Addressing)
  /-- LDL, R212. -/
  | ldl (m : Addressing)
  /-- LDB, R213. -/
  | ldb (m : Addressing)
  /-- LDS, R214. -/
  | lds (m : Addressing)
  /-- LDT, R215. -/
  | ldt (m : Addressing)
  /-- STA, R220. -/
  | sta (m : Addressing)
  /-- STX, R221. -/
  | stx (m : Addressing)
  /-- STL, R222. -/
  | stl (m : Addressing)
  /-- STB, R223. -/
  | stb (m : Addressing)
  /-- STS, R224. -/
  | sts (m : Addressing)
  /-- STT, R225. -/
  | stt (m : Addressing)
  /-- LDCH, R230. -/
  | ldch (m : Addressing)
  /-- STCH, R231. -/
  | stch (m : Addressing)
  /-- ADD, R240. -/
  | add (m : Addressing)
  /-- SUB, R241. -/
  | sub (m : Addressing)
  /-- MUL, R242. -/
  | mul (m : Addressing)
  /-- DIV, R243. -/
  | div (m : Addressing)
  /-- AND, R244. -/
  | and (m : Addressing)
  /-- OR, R245. -/
  | or (m : Addressing)
  /-- COMP, R246. -/
  | comp (m : Addressing)
  /-- TIX, R247. -/
  | tix (m : Addressing)
  /-- J, R260. -/
  | j (m : Addressing)
  /-- JEQ, R261. -/
  | jeq (m : Addressing)
  /-- JGT, R262. -/
  | jgt (m : Addressing)
  /-- JLT, R263. -/
  | jlt (m : Addressing)
  /-- JSUB, R264. -/
  | jsub (m : Addressing)
deriving DecidableEq, Repr

/-- The mnemonics of rule R86, the key of the opcode table. -/
inductive Mnemonic where
  | rsub | addr | subr | mulr | divr | rmo | compr | clear | shiftl | shiftr
  | tixr | lda | ldx | ldl | ldb | lds | ldt | sta | stx | stl
  | stb | sts | stt | ldch | stch | add | sub | mul | div | and
  | or | comp | tix | j | jeq | jgt | jlt | jsub
deriving DecidableEq, Repr

/-- The mnemonic of an instruction. -/
def Instr.mnemonic : Instr → Mnemonic
  | .rsub => .rsub
  | .addr _ _ => .addr
  | .subr _ _ => .subr
  | .mulr _ _ => .mulr
  | .divr _ _ => .divr
  | .rmo _ _ => .rmo
  | .compr _ _ => .compr
  | .clear _ => .clear
  | .shiftl _ _ => .shiftl
  | .shiftr _ _ => .shiftr
  | .tixr _ => .tixr
  | .lda _ => .lda
  | .ldx _ => .ldx
  | .ldl _ => .ldl
  | .ldb _ => .ldb
  | .lds _ => .lds
  | .ldt _ => .ldt
  | .sta _ => .sta
  | .stx _ => .stx
  | .stl _ => .stl
  | .stb _ => .stb
  | .sts _ => .sts
  | .stt _ => .stt
  | .ldch _ => .ldch
  | .stch _ => .stch
  | .add _ => .add
  | .sub _ => .sub
  | .mul _ => .mul
  | .div _ => .div
  | .and _ => .and
  | .or _ => .or
  | .comp _ => .comp
  | .tix _ => .tix
  | .j _ => .j
  | .jeq _ => .jeq
  | .jgt _ => .jgt
  | .jlt _ => .jlt
  | .jsub _ => .jsub

/-- The operand fields of an instruction, by format. -/
inductive Operands where
  /-- Format 1: none. -/
  | none
  /-- Format 2: the two nibbles of byte1, an unused one written as 0 (R84, R97). -/
  | nibbles (hi lo : BitVec 4)
  /-- Format 3 or 4. -/
  | addressing (m : Addressing)
deriving DecidableEq, Repr

/-- The operand fields an instruction carries. -/
def Instr.operands : Instr → Operands
  | .rsub => .none
  | .addr r1 r2 => .nibbles r1 r2
  | .subr r1 r2 => .nibbles r1 r2
  | .mulr r1 r2 => .nibbles r1 r2
  | .divr r1 r2 => .nibbles r1 r2
  | .rmo r1 r2 => .nibbles r1 r2
  | .compr r1 r2 => .nibbles r1 r2
  | .clear r1 => .nibbles r1 0#4
  | .shiftl r1 c => .nibbles r1 c
  | .shiftr r1 c => .nibbles r1 c
  | .tixr r1 => .nibbles r1 0#4
  | .lda m => .addressing m
  | .ldx m => .addressing m
  | .ldl m => .addressing m
  | .ldb m => .addressing m
  | .lds m => .addressing m
  | .ldt m => .addressing m
  | .sta m => .addressing m
  | .stx m => .addressing m
  | .stl m => .addressing m
  | .stb m => .addressing m
  | .sts m => .addressing m
  | .stt m => .addressing m
  | .ldch m => .addressing m
  | .stch m => .addressing m
  | .add m => .addressing m
  | .sub m => .addressing m
  | .mul m => .addressing m
  | .div m => .addressing m
  | .and m => .addressing m
  | .or m => .addressing m
  | .comp m => .addressing m
  | .tix m => .addressing m
  | .j m => .addressing m
  | .jeq m => .addressing m
  | .jgt m => .addressing m
  | .jlt m => .addressing m
  | .jsub m => .addressing m

end Sys2Proof
end

