-- ==== Sys2Proof/Config.lean ====
section
/-! DEFINITION. What the spec leaves to a parameter, as data that the model takes as an argument: the memory capacity and
the opcode table (R7 in 00_scope.md, R86 in 30_encoding.md; I16 and I17 of 93_implementation_defined.md). Their defaults
stand in Decode.lean. -/

namespace Sys2Proof

/-- A row of `OPCODES` (R7, R86): a mnemonic and its 6-bit opcode class. The format is the mnemonic's own
(`Mnemonic.shape`, R81 to R84); what a table replaces are the opcode values (R86, I17). -/
structure OpcodeRow where
  mnemonic    : Mnemonic
  opcodeClass : BitVec 6
deriving DecidableEq, Repr

/-- The table `OPCODES`, the one that decoder and encoder share (R86). -/
abbrev OpcodeTable := List OpcodeRow

/-- The parameters of the core (R7). They are fixed for a machine: no step and no operation of the host changes them. -/
structure Config where
  /-- `MEM_WORDS`, the memory capacity in 3-byte words. -/
  memWords : Nat
  /-- `OPCODES`. -/
  opcodes  : OpcodeTable
deriving DecidableEq, Repr

/-- `MEM_BYTES = 3 * MEM_WORDS` (R7, R50). -/
def Config.memBytes (c : Config) : Nat := 3 * c.memWords

/-- The three values `BYTE_X_ODD_PAD` may take: how an encoder pads an odd number of hex digits. No source fixes it, so
the encoding contract takes it as an argument (R96, D41, I20; log entry 12). -/
inductive OddPad where
  | leadingZero
  | trailingZero
  | error
deriving DecidableEq, Repr

end Sys2Proof
end

