-- ==== Sys2Proof/WellFormed.lean ====
section
/-! DEFINITION. What an encoding can express: the ranges of the address fields (R88 in 30_encoding.md).
Register numbers and counts are 4 bits by their type. -/

namespace Sys2Proof

/-- The address field fits its format: a 12-bit signed displacement or a 20-bit unsigned address (R88). -/
def AddrField.wellFormed : AddrField → Bool
  | .disp d => decide (-2048 ≤ d) && decide (d ≤ 2047)
  | .addr a => decide (a ≤ 1048575)

/-- Every field of the instruction fits its place in the encoding. -/
def Instr.wellFormed (i : Instr) : Bool :=
  match i.operands with
  | .addressing m => m.field.wellFormed
  | .nibbles _ _ | .none => true

/-- `Instr.wellFormed` as a decidable proposition. -/
abbrev WellFormed (i : Instr) : Prop := i.wellFormed = true

end Sys2Proof
end

