-- ==== Sys2Proof/Decode.lean ====
section
/-! DEFINITION. The default opcode table, the decoder and the encoder (30_encoding.md, R120 to R124 of 40_datapath.md).
Decoder and encoder take the one table `OPCODES` as an argument, as rule R86 asks. -/

namespace Sys2Proof

/-- The format of an instruction, with the constructor its fields go to. -/
inductive Shape where
  | format1 (i : Instr)
  | format2 (mk : BitVec 4 → BitVec 4 → Instr)
  | format34 (mk : Addressing → Instr)

/-- The format of a mnemonic: the format and operands columns of R86. -/
def Mnemonic.shape : Mnemonic → Shape
  | .rsub => .format1 .rsub
  | .clear => .format2 (fun r1 _ => .clear r1)
  | .addr => .format2 .addr
  | .subr => .format2 .subr
  | .mulr => .format2 .mulr
  | .divr => .format2 .divr
  | .rmo => .format2 .rmo
  | .compr => .format2 .compr
  | .shiftl => .format2 .shiftl
  | .shiftr => .format2 .shiftr
  | .tixr => .format2 (fun r1 _ => .tixr r1)
  | .lda => .format34 .lda
  | .ldx => .format34 .ldx
  | .ldl => .format34 .ldl
  | .ldb => .format34 .ldb
  | .lds => .format34 .lds
  | .ldt => .format34 .ldt
  | .sta => .format34 .sta
  | .stx => .format34 .stx
  | .stl => .format34 .stl
  | .stb => .format34 .stb
  | .sts => .format34 .sts
  | .stt => .format34 .stt
  | .ldch => .format34 .ldch
  | .stch => .format34 .stch
  | .add => .format34 .add
  | .sub => .format34 .sub
  | .mul => .format34 .mul
  | .div => .format34 .div
  | .and => .format34 .and
  | .or => .format34 .or
  | .comp => .format34 .comp
  | .j => .format34 .j
  | .jeq => .format34 .jeq
  | .jgt => .format34 .jgt
  | .jlt => .format34 .jlt
  | .jsub => .format34 .jsub
  | .tix => .format34 .tix

/-- The format 1 and format 2 rows of the default of `OPCODES`, by class (R86). PRESUMED: the spec itself takes every
opcode value but LDA's from general knowledge (D11, G1; log entry 3). -/
def opcodesShort : OpcodeTable :=
  [⟨.rsub, 0x13#6⟩,
   ⟨.clear, 0x2D#6⟩,
   ⟨.addr, 0x24#6⟩,
   ⟨.subr, 0x25#6⟩,
   ⟨.mulr, 0x26#6⟩,
   ⟨.divr, 0x27#6⟩,
   ⟨.rmo, 0x2B#6⟩,
   ⟨.compr, 0x28#6⟩,
   ⟨.shiftl, 0x29#6⟩,
   ⟨.shiftr, 0x2A#6⟩,
   ⟨.tixr, 0x2E#6⟩]

/-- The format 3/4 rows of the default of `OPCODES`, by class (R86; log entry 3). -/
def opcodesLong : OpcodeTable :=
  [⟨.lda, 0x00#6⟩,
   ⟨.ldx, 0x01#6⟩,
   ⟨.ldl, 0x02#6⟩,
   ⟨.ldb, 0x1A#6⟩,
   ⟨.lds, 0x1B#6⟩,
   ⟨.ldt, 0x1D#6⟩,
   ⟨.sta, 0x03#6⟩,
   ⟨.stx, 0x04#6⟩,
   ⟨.stl, 0x05#6⟩,
   ⟨.stb, 0x1E#6⟩,
   ⟨.sts, 0x1F#6⟩,
   ⟨.stt, 0x21#6⟩,
   ⟨.ldch, 0x14#6⟩,
   ⟨.stch, 0x15#6⟩,
   ⟨.add, 0x06#6⟩,
   ⟨.sub, 0x07#6⟩,
   ⟨.mul, 0x08#6⟩,
   ⟨.div, 0x09#6⟩,
   ⟨.and, 0x10#6⟩,
   ⟨.or, 0x11#6⟩,
   ⟨.comp, 0x0A#6⟩,
   ⟨.j, 0x0F#6⟩,
   ⟨.jeq, 0x0C#6⟩,
   ⟨.jgt, 0x0D#6⟩,
   ⟨.jlt, 0x0E#6⟩,
   ⟨.jsub, 0x12#6⟩,
   ⟨.tix, 0x0B#6⟩]

/-- The parameters at the spec's defaults (R7, R86, D23, D11; log entries 2 and 3). -/
def Config.default : Config := { memWords := 131072, opcodes := opcodesShort ++ opcodesLong }

/-- A table a machine can have: exactly one row for each mnemonic of R86, and no two rows with one class, so that the map
from class to instruction is injective (G1 of 93_implementation_defined.md). -/
def OpcodeTable.wf (t : OpcodeTable) : Bool :=
  (t.map (·.mnemonic)).isPerm (Config.default.opcodes.map (·.mnemonic)) && decide (t.map (·.opcodeClass)).Nodup

/-- The opcode class of a byte0, its bits 7..2 (R80, R85). -/
def opcodeClass (b0 : Byte) : BitVec 6 := b0.extractLsb' 2 6

/-- The opcode byte of a class, `class * 4` (R85). -/
def opcodeByte (c : BitVec 6) : Byte := c ++ 0#2

/-- `OPCODES.byClass` (R120, R122): the row of an opcode class, if there is one. -/
def rowOfClass (t : OpcodeTable) (c : BitVec 6) : Option OpcodeRow := t.find? fun r => r.opcodeClass == c

/-- The opcode byte the table gives a mnemonic (R85, R86). In a well-formed table every mnemonic has a row. -/
def opcodeOf (t : OpcodeTable) (k : Mnemonic) : Byte :=
  match t.find? fun r => r.mnemonic == k with
  | some r => opcodeByte r.opcodeClass
  | none   => 0#8

/-- `sext_12`: the signed value of a 12-bit field (R10, R88). -/
def sext12 (v : BitVec 12) : Int := v.toInt

/-- Length in bytes of a format-3/4 instruction: e = 0 gives 3, e = 1 gives 4 (R80). -/
def Addressing.length (m : Addressing) : Nat :=
  match m.field with
  | .disp _ => 3
  | .addr _ => 4

/-- Length of an instruction in bytes (R80). -/
def Instr.length (i : Instr) : Nat :=
  match i.operands with
  | .none         => 1
  | .nibbles _ _  => 2
  | .addressing m => m.length

/-- Why bytes do not decode. -/
inductive DecodeError where
  /-- byte0's class has no row in the table (R90, R122). -/
  | unimplementedOpcode
  /-- The bytes end before the instruction does: a fetch past the end of memory (R121, R123, R124). -/
  | truncated
deriving DecidableEq, Repr

/-- Formats 3 and 4 after byte0 (R82, R83, R88, R124): e, bit 4 of byte1, tells whether a byte3 follows. -/
def decodeLong (mk : Addressing → Instr) (b0 : Byte) : List Byte → Except DecodeError (Instr × List Byte)
  | b1 :: b2 :: rest =>
    let m (f : AddrField) : Addressing :=
      { n := b0.getLsbD 1, i := b0.getLsbD 0, x := b1.getLsbD 7, b := b1.getLsbD 6, p := b1.getLsbD 5, field := f }
    if b1.getLsbD 4 then
      match rest with
      | b3 :: rest' => .ok (mk (m (.addr (b1.extractLsb' 0 4 ++ b2 ++ b3).toNat)), rest')
      | [] => .error .truncated
    else
      .ok (mk (m (.disp (sext12 (b1.extractLsb' 0 4 ++ b2)))), rest)
  | _ => .error .truncated

/-- The decoder (R80, R92): the instruction at the head of the bytes and the bytes after it. The class is looked up
before any further byte is asked for (R122), and the bytes are asked for in fetch order (R287 steps 1 to 4). -/
def decode (t : OpcodeTable) : List Byte → Except DecodeError (Instr × List Byte)
  | [] => .error .truncated
  | b0 :: rest =>
    match rowOfClass t (opcodeClass b0) with
    | none => .error .unimplementedOpcode
    | some row =>
      match row.mnemonic.shape with
      | .format1 i => .ok (i, rest)
      | .format2 mk =>
        match rest with
        | b1 :: rest' => .ok (mk (b1.extractLsb' 4 4) (b1.extractLsb' 0 4), rest')
        | [] => .error .truncated
      | .format34 mk => decodeLong mk b0 rest

/-- byte1 of format 3 or 4: x, b, p, e and the top nibble of the address field (R82, R83). -/
def encodeByte1 (m : Addressing) (e : Bool) (top : BitVec 4) : Byte :=
  BitVec.ofBool m.x ++ BitVec.ofBool m.b ++ BitVec.ofBool m.p ++ BitVec.ofBool e ++ top

/-- The bytes of format 3 or 4 after byte0 (R82, R83), most significant first (R61). -/
def encodeField (m : Addressing) : List Byte :=
  match m.field with
  | .disp d =>
    let v := BitVec.ofInt 12 d
    [encodeByte1 m false (v.extractLsb' 8 4), v.extractLsb' 0 8]
  | .addr a =>
    let v := BitVec.ofNat 20 a
    [encodeByte1 m true (v.extractLsb' 16 4), v.extractLsb' 8 8, v.extractLsb' 0 8]

/-- The encoder: the bytes of an instruction in fetch order (R81 to R84), ignored bits 0 (log entry 5). -/
def encode (t : OpcodeTable) (i : Instr) : List Byte :=
  let op := opcodeOf t i.mnemonic
  match i.operands with
  | .none          => [op]
  | .nibbles hi lo => [op, hi ++ lo]
  | .addressing m  => (opcodeClass op ++ BitVec.ofBool m.n ++ BitVec.ofBool m.i) :: encodeField m

/-- The low `k` bytes of a number, most significant first (R61). -/
def bytesBE : Nat → Nat → List Byte
  | 0, _ => []
  | k + 1, w => BitVec.ofNat 8 (w / 256 ^ k) :: bytesBE k w

/-- The longest instruction, in bytes (R80). -/
def maxLength : Nat := 4

/-- The bytes of a table word: the `nbits`-bit number `w`, big-endian as the table's patterns and R61 write it, then
zero bytes up to the longest instruction (log entry 7). -/
def tableBytes (nbits w : Nat) : List Byte :=
  let k := (nbits + 7) / 8
  bytesBE k w ++ List.replicate (maxLength - k) 0#8

/-- What the decoder reads, with the default table, from a word numbered as spec/opcode_table.json numbers it. -/
def decodeTableWord (nbits w : Nat) : Option Instr :=
  match decode Config.default.opcodes (tableBytes nbits w) with
  | .ok (i, _) => some i
  | .error _   => none

end Sys2Proof
end

