-- ==== Sys2Proof/Machine/State.lean ====
section
/-! DEFINITION. The machine state of rule R39 (10_state.md) as plain data, and the state after reset (R320). -/

namespace Sys2Proof.Machine

/-- The condition code SW (R20, R31). -/
inductive CondCode where
  | less
  | equal
  | greater
deriving DecidableEq, Repr

/-- Why the engine halted (R33, R285). -/
inductive HaltReason where
  /-- RSUB with L = 0, a normal completion (R171). -/
  | returned
  /-- DIV or DIVR with a divisor of 0 (R183, R243). -/
  | divisionByZero
  /-- byte0's class is not in the opcode table (R122). -/
  | unimplementedOpcode
  /-- A fetch or a checked word access outside memory (R54, R56, R57). -/
  | outOfBounds
  /-- A register number outside the valid set (R27, R195). -/
  | invalidRegister
deriving DecidableEq, Repr

/-- The engine state (R33, R280). -/
inductive Engine where
  | idle
  | running
  | halted (r : HaltReason)
deriving DecidableEq, Repr

/-- The bytes of memory as (address, byte) pairs in one canonical form (`Memory.wf`, Ops.lean): addresses rising, and
no entry for a byte of 0, which is what an unlisted address holds (R320; log entry 8). -/
abbrev Memory := List Host.Cell

/-- The complete machine state (R39), with the parameters it is built with. -/
structure State where
  /-- A, register 0, the accumulator (R21). -/
  a      : S32
  /-- X, register 1, the index (R21). -/
  x      : S32
  /-- L, register 2, the linkage (R21). -/
  l      : S32
  /-- B, register 3, the base (R21). -/
  b      : S32
  /-- S, register 4 (R21). -/
  s      : S32
  /-- T, register 5 (R21). -/
  t      : S32
  /-- PC, register 8 (R29). -/
  pc     : S32
  /-- SW, register 9 (R31). -/
  sw     : CondCode
  /-- Memory (R35, R50). -/
  mem    : Memory
  /-- The engine state (R33). -/
  engine : Engine
  /-- The cancellation request (R34). -/
  cancel : Bool
  /-- The parameters of the machine (R7, R86). They are configuration and no state (R39): this field only carries the
  argument, and nothing writes it (log entry 2). -/
  config : Config
deriving DecidableEq, Repr

/-- The state at construction with the given parameters (R322), and after `reset()` (R38, R320): every value is the
spec's. -/
def State.initial (c : Config) : State :=
  { a := 0#32, x := 0#32, l := 0#32, b := 0#32, s := 0#32, t := 0#32, pc := 0#32, sw := .equal
    mem := [], engine := .idle, cancel := false, config := c }

/-- The state after reset of a machine with the spec's default parameters (R7, R38, R320). -/
def State.reset : State := State.initial Config.default

/-- Why the model stops with a fault: never. `step()` always returns (R281), and every condition the spec calls fatal
is a transition to `Engine.halted` (R284, R291), which is a next state (log entry 4), so there is no constructor. -/
inductive Fault
deriving DecidableEq, Repr

/-- Why the model gives no meaning. -/
inductive Refusal where
  /-- Raised by an arm of `exec` for an instruction without a meaning yet: safe. No arm of this model raises it. -/
  | notModelled (mnemonic : String)
deriving DecidableEq, Repr

end Sys2Proof.Machine
end

