-- ==== Sys2Proof/Machine/Ops.lean ====
section
/-! DEFINITION. The named operations over registers and memory, the sequencer, the staging of one instruction's writes
and the halt (R11 in 00_scope.md, 10_state.md, 20_memory.md, R127 in 40_datapath.md, R281 and R284 in 60_exceptions.md). -/

namespace Sys2Proof.Machine

/-- What every step answers. -/
abbrev Result := Host.Outcome State Fault Refusal

/-! ### One setter for each piece of state -/

def State.setA (s : State) (v : S32) : State := { s with a := v }
def State.setX (s : State) (v : S32) : State := { s with x := v }
def State.setL (s : State) (v : S32) : State := { s with l := v }
def State.setB (s : State) (v : S32) : State := { s with b := v }
def State.setS (s : State) (v : S32) : State := { s with s := v }
def State.setT (s : State) (v : S32) : State := { s with t := v }
def State.setPc (s : State) (v : S32) : State := { s with pc := v }
def State.setSw (s : State) (v : CondCode) : State := { s with sw := v }
def State.setMem (s : State) (v : Memory) : State := { s with mem := v }
def State.setEngine (s : State) (v : Engine) : State := { s with engine := v }
def State.setCancel (s : State) (v : Bool) : State := { s with cancel := v }

/-! ### Memory -/

/-- `MEM_BYTES` (R7, R50). The operations below take it as their argument `size`. -/
def State.memBytes (s : State) : Nat := s.config.memBytes

/-- The byte an address holds; an address without an entry holds 0 (R38, R320; log entry 8). -/
def Memory.read : Memory → Nat → Byte
  | [], _ => 0#8
  | (k, v) :: m, a => if a = k then v else Memory.read m a

/-- The memory with one byte replaced. The entry keeps its place in address order, and a byte of 0 has no entry. -/
def Memory.write : Memory → Nat → Byte → Memory
  | [], a, v => if v = 0#8 then [] else [(a, v)]
  | (k, w) :: m, a, v =>
    if a < k then (if v = 0#8 then (k, w) :: m else (a, v) :: (k, w) :: m)
    else if a = k then (if v = 0#8 then m else (a, v) :: m)
    else (k, w) :: Memory.write m a v

/-- The entries from address `lo` on are in rising order, inside memory (R50) and not 0. -/
def Memory.wfFrom (size : Nat) : Nat → Memory → Bool
  | _, [] => true
  | lo, (k, v) :: m => decide (lo ≤ k) && decide (k < size) && decide (v ≠ 0#8) && Memory.wfFrom size (k + 1) m

/-- The canonical form: equal memories are equal lists. -/
def Memory.wf (size : Nat) (m : Memory) : Bool := Memory.wfFrom size 0 m

/-- `0 ≤ a < MEM_BYTES` (R50). -/
def byteInRange (size : Nat) (a : Int) : Bool := decide (0 ≤ a) && decide (a < size)

/-- The bounds of a checked word access at `a`: not `a < 0 or a + 2 >= MEM_BYTES` (R54, R56). -/
def wordInRange (size : Nat) (a : Int) : Bool := decide (0 ≤ a) && decide (a + 2 < size)

/-- `word(a)`: three bytes, the most significant at the lowest address (R52). -/
def Memory.word (m : Memory) (a : Nat) : Word24 := m.read a ++ m.read (a + 1) ++ m.read (a + 2)

/-- The three bytes of a word written at `a` (R56). -/
def Memory.writeWord (m : Memory) (a : Nat) (w : Word24) : Memory :=
  ((m.write a (w.extractLsb' 16 8)).write (a + 1) (w.extractLsb' 8 8)).write (a + 2) (w.extractLsb' 0 8)

/-- `low24` (R10). -/
def low24 (v : S32) : Word24 := v.setWidth 24

/-- `low8` (R10). -/
def low8 (v : S32) : Byte := v.setWidth 8

/-- A word read placed in an s32: bits 31..24 are 0 (R55). -/
def zext24 (w : Word24) : S32 := w.setWidth 32

/-- `MemRead(a, 1)`, the checked fetch of a byte (R57). -/
def fetchByte (size : Nat) (m : Memory) (a : Int) : Except HaltReason Byte :=
  if byteInRange size a then .ok (m.read a.toNat) else .error .outOfBounds

/-- `MemRead(a, 3)`, the checked word read (R54). -/
def memReadWord (size : Nat) (m : Memory) (a : Int) : Except HaltReason Word24 :=
  if wordInRange size a then .ok (m.word a.toNat) else .error .outOfBounds

/-- `MemWrite(a, 3, v)`, the checked word write (R56). -/
def memWriteWord (size : Nat) (m : Memory) (a : Int) (v : S32) : Except HaltReason Memory :=
  if wordInRange size a then .ok (m.writeWord a.toNat (low24 v)) else .error .outOfBounds

/-- `ByteRead(a)`, the lenient byte read: 0 out of range (R58). -/
def byteRead (size : Nat) (m : Memory) (a : Int) : Byte :=
  if byteInRange size a then m.read a.toNat else 0#8

/-- `ByteWrite(a, v)`, the lenient byte write: nothing out of range (R59). -/
def byteWrite (size : Nat) (m : Memory) (a : Int) (v : Byte) : Memory :=
  if byteInRange size a then m.write a.toNat v else m

/-- Bytes written from address `a` on, each by `ByteWrite` (R321). -/
def writeBytes (size : Nat) (m : Memory) (a : Int) : List Byte → Memory
  | [] => m
  | v :: vs => writeBytes size (byteWrite size m a v) (a + 1) vs

/-- `readWord(w)`, by word index (R60). -/
def readWord (size : Nat) (m : Memory) (w : Int) : Except HaltReason Word24 := memReadWord size m (3 * w)

/-- `writeWord(w, v)`, by word index (R60). -/
def writeWord (size : Nat) (m : Memory) (w : Int) (v : S32) : Except HaltReason Memory := memWriteWord size m (3 * w) v

/-- At most `k` instruction bytes from address `a` on, up to the first that cannot be fetched (R121 to R124). The
decoder asks for them in this order; a fetch has no side effect (R65; log entry 6). -/
def fetchBytes (size : Nat) (m : Memory) : Nat → Int → List Byte
  | 0, _ => []
  | k + 1, a =>
    match fetchByte size m a with
    | .ok v    => v :: fetchBytes size m k (a + 1)
    | .error _ => []

/-! ### Sequencing, staging and the halt -/

/-- The value PC has after the advance by `len` bytes (R127). -/
def nextPc (s : State) (len : Nat) : S32 := wrap32 (s.pc.toInt + len)

/-- The staged advance of PC by the instruction's length, before its effect (R127). -/
def advance (s : State) (len : Nat) : State := s.setPc (nextPc s len)

/-- How `cycle()` ends (R281): with its staged writes, with RSUB's stop, or with a raise. -/
inductive CycleEnd where
  /-- The instruction completes with these staged writes. -/
  | completes (staged : State)
  /-- RSUB's stop: the staged writes commit and the engine halts with Returned (R171, R173). -/
  | stopsReturned (staged : State)
  /-- `raise Halt(r)` (R284). -/
  | raises (r : HaltReason)
deriving DecidableEq, Repr

/-- Taking a halt (R284, R291): every staged write is dropped, so the state is the one before the instruction, PC at
its byte0, and the engine state records the reason. Nothing else changes. -/
def halt (s : State) (r : HaltReason) : State := s.setEngine (.halted r)

/-- The end of `step()` (R281), from the state `s` before the instruction. -/
def commit (s : State) : CycleEnd → Result
  | .completes staged     => .next (staged.setEngine .running)
  | .stopsReturned staged => .next (staged.setEngine (.halted .returned))
  | .raises r             => .next (halt s r)

/-- A value read with a check, or the raise of the check that failed (R11, R287). -/
def CycleEnd.bind {α : Type} (e : Except HaltReason α) (k : α → CycleEnd) : CycleEnd :=
  match e with
  | .ok v    => k v
  | .error r => .raises r

end Sys2Proof.Machine
end

