-- ==== Sys2Proof/Machine/Alu.lean ====
section
/-! DEFINITION. The ALU primitives of rules R151 to R157 (40_datapath.md): each converts its operands to integers,
computes exactly and narrows with `wrap32`. -/

namespace Sys2Proof.Machine

/-- `add(a, b)` (R151). -/
def aluAdd (a b : S32) : S32 := wrap32 (a.toInt + b.toInt)

/-- `sub(a, b)` (R151). -/
def aluSub (a b : S32) : S32 := wrap32 (a.toInt - b.toInt)

/-- `mul(a, b)` (R152). -/
def aluMul (a b : S32) : S32 := wrap32 (a.toInt * b.toInt)

/-- `trunc_div(a, b)`, for `b ≠ 0` (R153): the quotient of the magnitudes with the sign of the product. -/
def truncDiv (a b : S32) : S32 :=
  wrap32 (a.toInt.sign * b.toInt.sign * (a.toInt.natAbs / b.toInt.natAbs : Nat))

/-- `and(a, b)` on the 32-bit patterns (R154). -/
def aluAnd (a b : S32) : S32 := a &&& b

/-- `or(a, b)` on the 32-bit patterns (R154). -/
def aluOr (a b : S32) : S32 := a ||| b

/-- `shl(v, c)`, the logical left shift (R155). -/
def aluShl (v : S32) (c : Nat) : S32 := wrap32 (v.toInt * 2 ^ c)

/-- `sar(v, c)`, the arithmetic right shift `floor(v / 2^c)` (R156). -/
def aluSar (v : S32) (c : Nat) : S32 := wrap32 (Int.fdiv v.toInt (2 ^ c))

/-- `inc(v)`, the index increment of TIX and TIXR (R157). -/
def aluInc (v : S32) : S32 := wrap32 (v.toInt + 1)

end Sys2Proof.Machine
end

