-- ==== Sys2Proof/Machine/Flags.lean ====
section
/-! DEFINITION. The condition code: how it is computed (R150 in 40_datapath.md) and its numeric view (R28 in
10_state.md). There is no other flag (R158). -/

namespace Sys2Proof.Machine

/-- `compare(a, b)`, signed 32-bit (R150). -/
def compare32 (a b : S32) : CondCode :=
  if a.toInt < b.toInt then .less
  else if a.toInt = b.toInt then .equal
  else .greater

/-- Reading register 9: -1, 0 or +1 (R28). -/
def CondCode.toS32 : CondCode → S32
  | .less    => wrap32 (-1)
  | .equal   => wrap32 0
  | .greater => wrap32 1

/-- Writing register 9: the sign of the value (R28). -/
def CondCode.ofS32 (v : S32) : CondCode :=
  if v.toInt < 0 then .less
  else if v.toInt = 0 then .equal
  else .greater

end Sys2Proof.Machine
end

