-- ==== Sys2Proof/Machine/Operands.lean ====
section
/-! DEFINITION. Every operand form: the registers of format 2 (R27, R28 in 10_state.md; R195 in 42_register_ops.md), the
target (R131 to R133) and the operand (R136, R137) of formats 3 and 4 (40_datapath.md). -/

namespace Sys2Proof.Machine

/-- What a valid register number names (R21, R27). -/
inductive Reg where
  | a
  | x
  | l
  | b
  | s
  | t
  | pc
  | sw
deriving DecidableEq, Repr

/-- `lookup(k)` (R27): total on the 4-bit numbers; 6, 7 and 10 to 15 raise InvalidRegister. -/
def lookup (k : BitVec 4) : Except HaltReason Reg :=
  match k with
  | 0#4 => .ok .a
  | 1#4 => .ok .x
  | 2#4 => .ok .l
  | 3#4 => .ok .b
  | 4#4 => .ok .s
  | 5#4 => .ok .t
  | 8#4 => .ok .pc
  | 9#4 => .ok .sw
  | _ => .error .invalidRegister

/-- The value a register reads as; SW through its numeric view (R27, R28). -/
def regRead (s : State) : Reg → S32
  | .a  => s.a
  | .x  => s.x
  | .l  => s.l
  | .b  => s.b
  | .s  => s.s
  | .t  => s.t
  | .pc => s.pc
  | .sw => s.sw.toS32

/-- A register written, all 32 bits (R22); SW through its numeric view (R28). -/
def regWrite (s : State) (r : Reg) (v : S32) : State :=
  match r with
  | .a  => s.setA v
  | .x  => s.setX v
  | .l  => s.setL v
  | .b  => s.setB v
  | .s  => s.setS v
  | .t  => s.setT v
  | .pc => s.setPc v
  | .sw => s.setSw (CondCode.ofS32 v)

/-- The base of the target: p before b before direct in format 3 (R131), the address itself in format 4, whose b and p
have no effect (R132). `s` has the advanced PC (R127). -/
def baseAddress (s : State) (m : Addressing) : Int :=
  match m.field with
  | .disp d => if m.p then s.pc.toInt + d else if m.b then s.b.toInt + d else d
  | .addr a => a

/-- The target, `EA` (R133): indexed by X if x = 1, reduced by `wrap32`, neither masked nor checked (R135). -/
def target (s : State) (m : Addressing) : S32 :=
  wrap32 (baseAddress s m + if m.x then s.x.toInt else 0)

/-- The addressing modes n and i select (R136). -/
inductive Mode where
  | immediate
  | simple
  | indirect
deriving DecidableEq, Repr

/-- The mode of an operand-using instruction (R136); n = i = 1 is simple, as n = i = 0. -/
def modeOf (m : Addressing) : Mode :=
  match m.n, m.i with
  | false, true  => .immediate
  | true,  false => .indirect
  | false, false => .simple
  | true,  true  => .simple

/-- A memory operand: a checked word read, zero-extended (R54, R55). -/
def memOperand (size : Nat) (mem : Memory) (a : Int) : Except HaltReason S32 := (memReadWord size mem a).map zext24

/-- The operand at a pointer that a checked word read gave, or the raise of that read (R137). -/
def pointedOperand (size : Nat) (mem : Memory) : Except HaltReason Word24 → Except HaltReason S32
  | .ok ptr  => memOperand size mem ptr.toNat
  | .error r => .error r

/-- `operand(n, i, target)` (R137). -/
def operand (s : State) (m : Addressing) : Except HaltReason S32 :=
  match modeOf m with
  | .immediate => .ok (target s m)
  | .simple    => memOperand s.memBytes s.mem (target s m).toInt
  | .indirect  => pointedOperand s.memBytes s.mem (memReadWord s.memBytes s.mem (target s m).toInt)

/-! ### The shared shapes of the instructions -/

/-- An operand-using instruction: advance PC, resolve the operand (R137), then the effect on the staged state. -/
def withOperand (m : Addressing) (s : State) (effect : State → S32 → CycleEnd) : Result :=
  let s1 := advance s m.length
  commit s (CycleEnd.bind (operand s1 m) (effect s1))

/-- A target-using instruction: advance PC, form the target (R138), then the effect on the staged state. -/
def withTarget (m : Addressing) (s : State) (effect : State → S32 → CycleEnd) : Result :=
  let s1 := advance s m.length
  commit s (effect s1 (target s1 m))

/-- A format-2 instruction with one register number: advance PC by 2, validate r1 (R195), then the effect. -/
def withReg (r1 : BitVec 4) (s : State) (effect : State → Reg → CycleEnd) : Result :=
  commit s (CycleEnd.bind (lookup r1) (effect (advance s 2)))

/-- A format-2 instruction with two register numbers: advance PC by 2, validate r1 and then r2 (R195), then the
effect. -/
def withRegs (r1 r2 : BitVec 4) (s : State) (effect : State → Reg → Reg → CycleEnd) : Result :=
  commit s (CycleEnd.bind (lookup r1) fun p => CycleEnd.bind (lookup r2) (effect (advance s 2) p))

end Sys2Proof.Machine
end

