-- ==== Sys2Proof/Machine/Arith.lean ====
section
/-! DEFINITION. Arithmetic, logic and compare of formats 3 and 4 (44_arith_compare.md). -/

namespace Sys2Proof.Machine

/-- ADD m (R240): `A <- add(A, operand)`. -/
def execAdd (m : Addressing) (s : State) : Result :=
  withOperand m s fun s1 v => .completes (s1.setA (aluAdd s1.a v))

/-- SUB m (R241): `A <- sub(A, operand)`. -/
def execSub (m : Addressing) (s : State) : Result :=
  withOperand m s fun s1 v => .completes (s1.setA (aluSub s1.a v))

/-- MUL m (R242): `A <- mul(A, operand)`. -/
def execMul (m : Addressing) (s : State) : Result :=
  withOperand m s fun s1 v => .completes (s1.setA (aluMul s1.a v))

/-- DIV m (R243): after the operand is read, raises DivisionByZero if it is 0, else `A <- trunc_div(A, operand)`. -/
def execDiv (m : Addressing) (s : State) : Result :=
  withOperand m s fun s1 v =>
    if v = 0#32 then .raises .divisionByZero else .completes (s1.setA (truncDiv s1.a v))

/-- AND m (R244): `A <- A & operand`. -/
def execAnd (m : Addressing) (s : State) : Result :=
  withOperand m s fun s1 v => .completes (s1.setA (aluAnd s1.a v))

/-- OR m (R245): `A <- A | operand`. -/
def execOr (m : Addressing) (s : State) : Result :=
  withOperand m s fun s1 v => .completes (s1.setA (aluOr s1.a v))

/-- COMP m (R246): `SW <- compare(A, operand)`. -/
def execComp (m : Addressing) (s : State) : Result :=
  withOperand m s fun s1 v => .completes (s1.setSw (compare32 s1.a v))

/-- TIX m (R247): the operand is formed with the old X (R134), then X <- inc(X) and SW <- compare(X, operand). -/
def execTix (m : Addressing) (s : State) : Result :=
  withOperand m s fun s1 v =>
    let s2 := s1.setX (aluInc s1.x)
    .completes (s2.setSw (compare32 s2.x v))

end Sys2Proof.Machine
end

