-- ==== Sys2Proof/Machine/Format1.lean ====
section
/-! DEFINITION. Format 1, RSUB (41_rsub.md). -/

namespace Sys2Proof.Machine

/-- RSUB (R171): PC <- L, over the advance already staged (R127); the engine stops with Returned iff L = 0 (R172), and
that stop commits PC (R173). -/
def execRsub (s : State) : Result :=
  let s1 := (advance s 1).setPc s.l
  commit s (if s.l = 0#32 then .stopsReturned s1 else .completes s1)

end Sys2Proof.Machine
end

