-- ==== Sys2Proof/Machine/Jumps.lean ====
section
/-! DEFINITION. Jumps and the subroutine call (45_control_transfer.md). A target outside memory is no error of the jump;
the next fetch halts there (R135, R266). -/

namespace Sys2Proof.Machine

/-- The conditional jump the three share: PC <- target if SW has the given value, else the advanced PC stays. -/
def jumpIf (c : CondCode) (m : Addressing) (s : State) : Result :=
  withTarget m s fun s1 t => .completes (if s1.sw = c then s1.setPc t else s1)

/-- J m (R260): `PC <- target`. -/
def execJ (m : Addressing) (s : State) : Result :=
  withTarget m s fun s1 t => .completes (s1.setPc t)

/-- JEQ m (R261). -/
def execJeq (m : Addressing) (s : State) : Result := jumpIf .equal m s

/-- JGT m (R262). -/
def execJgt (m : Addressing) (s : State) : Result := jumpIf .greater m s

/-- JLT m (R263). -/
def execJlt (m : Addressing) (s : State) : Result := jumpIf .less m s

/-- JSUB m (R264): L <- the advanced PC, then PC <- target. -/
def execJsub (m : Addressing) (s : State) : Result :=
  withTarget m s fun s1 t => .completes ((s1.setL s1.pc).setPc t)

end Sys2Proof.Machine
end

