-- ==== Sys2Proof/Machine/LoadStore.lean ====
section
/-! DEFINITION. Loads and stores (43_load_store.md). -/

namespace Sys2Proof.Machine

/-- The word store the six share (R219): `MemWrite(target, 3, Rs)`, with n and i ignored (R138). -/
def storeWord (m : Addressing) (s : State) (v : State → S32) : Result :=
  withTarget m s fun s1 t =>
    CycleEnd.bind (memWriteWord s1.memBytes s1.mem t.toInt (v s1)) fun mem => .completes (s1.setMem mem)

/-- LDA m (R210): `A <- operand` (R209). -/
def execLda (m : Addressing) (s : State) : Result :=
  withOperand m s fun s1 v => .completes (s1.setA v)

/-- LDX m (R211): `X <- operand` (R209). -/
def execLdx (m : Addressing) (s : State) : Result :=
  withOperand m s fun s1 v => .completes (s1.setX v)

/-- LDL m (R212): `L <- operand` (R209). -/
def execLdl (m : Addressing) (s : State) : Result :=
  withOperand m s fun s1 v => .completes (s1.setL v)

/-- LDB m (R213): `B <- operand` (R209). -/
def execLdb (m : Addressing) (s : State) : Result :=
  withOperand m s fun s1 v => .completes (s1.setB v)

/-- LDS m (R214): `S <- operand` (R209). -/
def execLds (m : Addressing) (s : State) : Result :=
  withOperand m s fun s1 v => .completes (s1.setS v)

/-- LDT m (R215): `T <- operand` (R209). -/
def execLdt (m : Addressing) (s : State) : Result :=
  withOperand m s fun s1 v => .completes (s1.setT v)

/-- STA m (R220): `MemWrite(target, 3, A)` (R219). -/
def execSta (m : Addressing) (s : State) : Result := storeWord m s (·.a)

/-- STX m (R221): `MemWrite(target, 3, X)` (R219). -/
def execStx (m : Addressing) (s : State) : Result := storeWord m s (·.x)

/-- STL m (R222): `MemWrite(target, 3, L)` (R219). -/
def execStl (m : Addressing) (s : State) : Result := storeWord m s (·.l)

/-- STB m (R223): `MemWrite(target, 3, B)` (R219). -/
def execStb (m : Addressing) (s : State) : Result := storeWord m s (·.b)

/-- STS m (R224): `MemWrite(target, 3, S)` (R219). -/
def execSts (m : Addressing) (s : State) : Result := storeWord m s (·.s)

/-- STT m (R225): `MemWrite(target, 3, T)` (R219). -/
def execStt (m : Addressing) (s : State) : Result := storeWord m s (·.t)

/-- LDCH m (R230): the low byte of A from the lenient byte read at the target; bits 31..8 of A are kept. -/
def execLdch (m : Addressing) (s : State) : Result :=
  withTarget m s fun s1 t =>
    .completes (s1.setA ((s1.a &&& 0xFFFFFF00#32) ||| (byteRead s1.memBytes s1.mem t.toInt).setWidth 32))

/-- STCH m (R231): the low byte of A to the target by the lenient byte write. -/
def execStch (m : Addressing) (s : State) : Result :=
  withTarget m s fun s1 t => .completes (s1.setMem (byteWrite s1.memBytes s1.mem t.toInt (low8 s1.a)))

end Sys2Proof.Machine
end

