-- ==== Sys2Proof/Machine/RegisterOps.lean ====
section
/-! DEFINITION. Format 2, the register operations (42_register_ops.md). Every source is read on the state whose PC is
advanced (R196) and before the destination is written (R198). -/

namespace Sys2Proof.Machine

/-- ADDR r1, r2 (R180): `R[r2] <- add(R[r2], R[r1])`. -/
def execAddr (r1 r2 : BitVec 4) (s : State) : Result :=
  withRegs r1 r2 s fun s1 p q => .completes (regWrite s1 q (aluAdd (regRead s1 q) (regRead s1 p)))

/-- SUBR r1, r2 (R181): `R[r2] <- sub(R[r2], R[r1])`. -/
def execSubr (r1 r2 : BitVec 4) (s : State) : Result :=
  withRegs r1 r2 s fun s1 p q => .completes (regWrite s1 q (aluSub (regRead s1 q) (regRead s1 p)))

/-- MULR r1, r2 (R182): `R[r2] <- mul(R[r2], R[r1])`. -/
def execMulr (r1 r2 : BitVec 4) (s : State) : Result :=
  withRegs r1 r2 s fun s1 p q => .completes (regWrite s1 q (aluMul (regRead s1 q) (regRead s1 p)))

/-- DIVR r1, r2 (R183): raises DivisionByZero if R[r1] = 0, else `R[r2] <- trunc_div(R[r2], R[r1])`. -/
def execDivr (r1 r2 : BitVec 4) (s : State) : Result :=
  withRegs r1 r2 s fun s1 p q =>
    if regRead s1 p = 0#32 then .raises .divisionByZero
    else .completes (regWrite s1 q (truncDiv (regRead s1 q) (regRead s1 p)))

/-- RMO r1, r2 (R187): `R[r2] <- R[r1]`. -/
def execRmo (r1 r2 : BitVec 4) (s : State) : Result :=
  withRegs r1 r2 s fun s1 p q => .completes (regWrite s1 q (regRead s1 p))

/-- COMPR r1, r2 (R188): `SW <- compare(R[r1], R[r2])`. -/
def execCompr (r1 r2 : BitVec 4) (s : State) : Result :=
  withRegs r1 r2 s fun s1 p q => .completes (s1.setSw (compare32 (regRead s1 p) (regRead s1 q)))

/-- CLEAR r1 (R191): `R[r1] <- 0`. -/
def execClear (r1 : BitVec 4) (s : State) : Result :=
  withReg r1 s fun s1 p => .completes (regWrite s1 p 0#32)

/-- SHIFTL r1, n (R192): `R[r1] <- shl(R[r1], c + 1)`, c the count nibble, never checked as a register number. -/
def execShiftl (r1 c : BitVec 4) (s : State) : Result :=
  withReg r1 s fun s1 p => .completes (regWrite s1 p (aluShl (regRead s1 p) (c.toNat + 1)))

/-- SHIFTR r1, n (R193): `R[r1] <- sar(R[r1], c + 1)`. -/
def execShiftr (r1 c : BitVec 4) (s : State) : Result :=
  withReg r1 s fun s1 p => .completes (regWrite s1 p (aluSar (regRead s1 p) (c.toNat + 1)))

/-- TIXR r1 (R194): X <- inc(X), then SW <- compare(X, R[r1]), which reads the incremented X. -/
def execTixr (r1 : BitVec 4) (s : State) : Result :=
  withReg r1 s fun s1 p =>
    let s2 := s1.setX (aluInc s1.x)
    .completes (s2.setSw (compare32 s2.x (regRead s2 p)))

end Sys2Proof.Machine
end

