-- ==== Sys2Proof/Machine/Cycle.lean ====
section
/-! DEFINITION. Fetch, the instruction cycle (R120 to R124 in 40_datapath.md), one step of the engine (R281 and R283 in
60_exceptions.md), and the placing of a word to be fetched. Step.lean only calls these. -/

namespace Sys2Proof.Machine

/-- The bytes the fetch at PC can reach (R121 to R124). -/
def fetchWindow (s : State) : List Byte := fetchBytes s.memBytes s.mem maxLength s.pc.toInt

/-- The halt of a fetch or decode that fails (R121 to R124, R287 steps 1 to 4). -/
def decodeHalt : DecodeError → HaltReason
  | .unimplementedOpcode => .unimplementedOpcode
  | .truncated           => .outOfBounds

/-- Fetch, decode and execute one instruction (R120); a raise in fetch or decode halts as any other (R284). -/
def cycle (s : State) : Result :=
  match decode s.config.opcodes (fetchWindow s) with
  | .ok (i, _) => exec i s
  | .error e   => commit s (.raises (decodeHalt e))

/-- `step()` (R281): nothing in Halted (R283), else one cycle. It does not test `cancel` (R292). -/
def stepEngine (s : State) : Result :=
  match s.engine with
  | .halted _        => .next s
  | .idle | .running => cycle s

/-- `s` with the instruction of a table word stored where the next step fetches: at PC. So that the fetch reaches all
of it, an engine that is Halted becomes Idle and a PC without room for the longest instruction becomes 0, both as
`load` leaves them (R321; log entry 7). -/
def placeWord (s : State) (nbits w : Nat) : State :=
  let pc := if 0 ≤ s.pc.toInt ∧ s.pc.toInt + maxLength ≤ s.memBytes then s.pc else 0#32
  let engine := match s.engine with
    | .halted _ => .idle
    | e         => e
  { s with pc := pc, engine := engine, mem := writeBytes s.memBytes s.mem pc.toInt (tableBytes nbits w) }

end Sys2Proof.Machine
end

