-- ==== Sys2Proof/Machine/Step.lean ====
section
/-! DEFINITION. The step of the machine and the placing of a word to be fetched, under the names the host uses. -/

namespace Sys2Proof.Machine

/-- One `step()` (R281). -/
def step (s : State) : Host.Outcome State Fault Refusal := stepEngine s

/-- `s` with the instruction of a table word stored where `step` fetches next (log entry 7). -/
def State.withFetchWord (s : State) (nbits w : Nat) : State := placeWord s nbits w

end Sys2Proof.Machine
end

