-- ==== Sys2Proof/Machine/Assembler.lean ====
section
/-! DEFINITION. The encoding contract an encoder shares with the core (R96 to R99 in 30_encoding.md): what bytes a
resolved source line becomes. It takes the decoder's table as an argument (R86) and does not bind the core. Source text,
symbols and the two passes are out of scope (R5 in 00_scope.md; log entry 12). -/

namespace Sys2Proof.Machine

/-- A register name in a format-2 operand (R97), F included although the core has no register 6. -/
inductive RegName where
  | a
  | x
  | l
  | b
  | s
  | t
  | f
  | pc
  | sw
deriving DecidableEq, Repr

/-- The number of a register name (R21, R97). -/
def RegName.number : RegName → BitVec 4
  | .a  => 0#4
  | .x  => 1#4
  | .l  => 2#4
  | .b  => 3#4
  | .s  => 4#4
  | .t  => 5#4
  | .f  => 6#4
  | .pc => 8#4
  | .sw => 9#4

/-- Why a line is not emitted. -/
inductive AsmError where
  /-- The target does not fit the form (R98, R99; C12). -/
  | range
  /-- `BYTE X` with an odd number of digits where `BYTE_X_ODD_PAD` is `error` (R96, D41). -/
  | oddDigits
deriving DecidableEq, Repr

/-- RSUB, the one format-1 mnemonic: its opcode byte (R97, D39). -/
def asmFormat1 (t : OpcodeTable) (k : Mnemonic) : List Byte := [opcodeOf t k]

/-- Format 2: the opcode byte, then `r1 * 16 + r2`, with r2 = 0 when omitted (R97). DESIGN CHOICE: an operand is a
4-bit number, so a line with a decimal token above 15, for which R97 states neither a range nor an error, has no meaning
here (log entry 14). -/
def asmFormat2 (t : OpcodeTable) (k : Mnemonic) (r1 : BitVec 4) (r2 : Option (BitVec 4)) : List Byte :=
  [opcodeOf t k, r1 ++ r2.getD 0#4]

/-- The three bytes of format 3 with the flags of byte1 given (R98): n = i = 0, the displacement masked to 12 bits. -/
def asmFormat3Bytes (t : OpcodeTable) (k : Mnemonic) (flags : Byte) (disp : Int) : List Byte :=
  let v := BitVec.ofInt 12 disp
  [opcodeOf t k, flags ||| (v.extractLsb' 8 4).setWidth 8, v.extractLsb' 0 8]

/-- Format 3 at location counter `lc` with the assembler's base value (R98): PC-relative if it fits, else base-relative
with a displacement in [0, 2047] (C3), else a range error. -/
def asmFormat3 (t : OpcodeTable) (k : Mnemonic) (lc target : Int) (base : Option Int) : Except AsmError (List Byte) :=
  if -2048 ≤ target - (lc + 3) ∧ target - (lc + 3) ≤ 2047 then .ok (asmFormat3Bytes t k 0x20#8 (target - (lc + 3)))
  else
    match base with
    | some v =>
      if 0 ≤ target - v ∧ target - v ≤ 2047 then .ok (asmFormat3Bytes t k 0x40#8 (target - v)) else .error .range
    | none   => .error .range

/-- Format 4, `+MNEMONIC operand` (R99): e = 1 and the 20-bit target, or a range error (D42). -/
def asmFormat4 (t : OpcodeTable) (k : Mnemonic) (target : Int) : Except AsmError (List Byte) :=
  if 0 ≤ target ∧ target ≤ 1048575 then
    let v := BitVec.ofInt 20 target
    .ok [opcodeOf t k, 0x10#8 ||| (v.extractLsb' 16 4).setWidth 8, v.extractLsb' 8 8, v.extractLsb' 0 8]
  else .error .range

/-- A directive with its operand resolved (R96). -/
inductive Directive where
  | start (addr : Int)
  | finish
  | base (v : Int)
  | noBase
  /-- `BYTE C'..'`, one byte a character. -/
  | byteChars (codes : List Byte)
  /-- `BYTE X'..'`, its hex digits. -/
  | byteHex (digits : List (BitVec 4))
  | word (v : Int)
  | resw (n : Nat)
  | resb (n : Nat)
deriving DecidableEq, Repr

/-- The pass-1 size of a directive in bytes (R96). -/
def Directive.size : Directive → Nat
  | .start _ | .finish | .base _ | .noBase => 0
  | .byteChars codes  => codes.length
  | .byteHex digits   => (digits.length + 1) / 2
  | .word _           => 3
  | .resw n           => 3 * n
  | .resb n           => n

/-- Hex digits in pairs, the high digit first; an odd last digit is followed by 0. -/
def hexPairs : List (BitVec 4) → List Byte
  | [] => []
  | [h] => [h ++ 0#4]
  | h :: l :: ds => (h ++ l) :: hexPairs ds

/-- The bytes of `BYTE X'..'`, an odd number of digits padded as the parameter `BYTE_X_ODD_PAD` says (R96, D41). -/
def asmByteHex (pad : OddPad) (digits : List (BitVec 4)) : Except AsmError (List Byte) :=
  if digits.length % 2 = 0 then .ok (hexPairs digits)
  else
    match pad with
    | .leadingZero  => .ok (hexPairs (0#4 :: digits))
    | .trailingZero => .ok (hexPairs digits)
    | .error        => .error .oddDigits

/-- The pass-2 output of a directive; `more` says whether further output follows it (R96, D40, C15). -/
def Directive.output (pad : OddPad) (more : Bool) : Directive → Except AsmError (List Byte)
  | .start _ | .finish | .base _ | .noBase => .ok []
  | .byteChars codes => .ok codes
  | .byteHex digits  => asmByteHex pad digits
  | .word v          =>
    let w := BitVec.ofInt 24 v
    .ok [w.extractLsb' 16 8, w.extractLsb' 8 8, w.extractLsb' 0 8]
  | .resw n          => .ok (if more then List.replicate (3 * n) 0#8 else [])
  | .resb n          => .ok (if more then List.replicate n 0#8 else [])

end Sys2Proof.Machine
end

