-- ==== Sys2Proof/Machine/HostPort.lean ====
section
/-! DEFINITION. The control port: the host's operations on the machine (R282, R292, R300, R302 in 60_exceptions.md; R320
to R322 in 70_reset_and_hazards.md) and the numeric codes (R286). The host acts only between steps (R290). -/

namespace Sys2Proof.Machine

/-- `load(bytes)` (R321): the bytes go to addresses 0, 1, ..., those past the end of memory are dropped, PC becomes 0
and the engine Idle; nothing else changes. It is allowed in every engine state (R300). -/
def loadBytes (s : State) (bytes : List Byte) : State :=
  { s with mem := writeBytes s.memBytes s.mem 0 bytes, pc := 0#32, engine := .idle }

/-- The host's `load` of an object file: `none` is a file that cannot be read, which is a `LoadError` and changes no
state (R302; log entry 11). -/
inductive LoadResult where
  | loaded (s : State)
  | loadError (unchanged : State)
deriving DecidableEq, Repr

/-- `load` with its failure (R302, R321). -/
def hostLoad (s : State) : Option (List Byte) → LoadResult
  | some bytes => .loaded (loadBytes s bytes)
  | none       => .loadError s

/-- `reset()` (R320): every field at its reset value, whatever the state before; the parameters stay. -/
def hostReset (s : State) : State := State.initial s.config

/-- The host sets the cancellation request (R34, R300). -/
def hostCancel (s : State) : State := s.setCancel true

/-- How a `run()` ends, as far as a list of step boundaries tells (R282, R303). -/
inductive RunResult where
  /-- `run()` returned: Halted, or cancelled with the request cleared (R292). -/
  | returned (s : State)
  /-- `run()` is still executing after the boundaries listed. -/
  | stillRunning (s : State)
  /-- `step()` gave no next state; it never happens (R281). -/
  | noStep
deriving DecidableEq, Repr

/-- `run()` (R282). Each entry of the list is one turn of its loop and says whether the host has set `cancel` by then
(I23; log entry 9): Halted returns, a request is cleared and returns, else one `step()`. -/
def run : List Bool → State → RunResult
  | [], s => .stillRunning s
  | c :: cs, s =>
    let s0 := if c then hostCancel s else s
    match s0.engine with
    | .halted _ => .returned s0
    | .idle | .running =>
      if s0.cancel then .returned (s0.setCancel false)
      else
        match step s0 with
        | .next s1 => run cs s1
        | .fault _ | .refused _ => .noStep

/-- The accessor of a memory byte (R300): every byte of [0, MEM_BYTES-1]. The other accessors are the fields of
`State`, all 32 bits of a register included (D37). -/
def hostByte (s : State) (a : Nat) : Option Byte := if a < s.memBytes then some (s.mem.read a) else none

/-- The codes of the engine states (R286). -/
def Engine.code : Engine → Nat
  | .idle     => 0
  | .running  => 1
  | .halted _ => 2

/-- The codes of the halt reasons (R285, R286). -/
def HaltReason.code : HaltReason → Nat
  | .returned            => 1
  | .divisionByZero      => 2
  | .unimplementedOpcode => 3
  | .outOfBounds         => 4
  | .invalidRegister     => 5

end Sys2Proof.Machine
end

