-- ==== Sys2Proof/Safety.lean ====
section
/-! DEFINITION. The terms in which claims about the machine are stated: well-formed states, readable operands and
frames. None of these takes part in a step. -/

namespace Sys2Proof.Machine

/-- The opcode table is one a machine can have, the memory has its canonical form, and an engine that stopped with
Returned has PC = L = 0 (R171, R285). -/
abbrev StateInv (s : State) : Prop :=
  s.config.opcodes.wf = true ∧ s.mem.wf s.memBytes = true ∧ (s.engine = .halted .returned → s.pc = 0#32 ∧ s.l = 0#32)

/-- Whether the engine is in a Halted state (R33). -/
def isHalted (s : State) : Bool :=
  match s.engine with
  | .halted _        => true
  | .idle | .running => false

/-- The function applied to a next state; the other outcomes stay. -/
def mapNext (f : State → State) : Result → Result
  | .next s    => .next (f s)
  | .fault r   => .fault r
  | .refused r => .refused r

/-! ### Fetch and decode -/

/-- The bytes from address `a` on are in memory and are these. -/
def BytesAt (size : Nat) (m : Memory) (a : Int) (bs : List Byte) : Prop :=
  ∀ (k : Nat) (h : k < bs.length), (0 ≤ a + k ∧ a + k < size) ∧ m.read (a + k).toNat = bs[k]

/-- Whether a row is a format-3/4 row. -/
def isLong : Shape → Bool
  | .format34 _            => true
  | .format1 _ | .format2 _ => false

/-- Whether operands have the form a row's format gives them. -/
def fits : Shape → Operands → Bool
  | .format1 _,  .none         => true
  | .format2 _,  .nibbles _ _  => true
  | .format34 _, .addressing _ => true
  | _, _ => false

/-- The bits of an instruction's bytes that are not ignored: all of formats 3 and 4, byte0[7:2] in formats 1 and 2 (R81,
R84), and byte1[7:4] alone where r2 is unused (R89). -/
def meaningfulBits (i : Instr) : List Byte :=
  match i.operands with
  | .none         => [0xFC#8]
  | .nibbles _ _  =>
    match i.mnemonic with
    | .clear | .tixr => [0xFC#8, 0xF0#8]
    | _              => [0xFC#8, 0xFF#8]
  | .addressing m => List.replicate m.length 0xFF#8

/-! ### Operands -/

/-- The target of a format-3/4 instruction at `s` as an address: formed with the advanced PC (R127, R133). -/
def effective (s : State) (m : Addressing) : Int := (target (advance s m.length) m).toInt

/-- The pointer an indirect operand reads at the target (R137). -/
def pointer (s : State) (m : Addressing) : Int := (s.mem.word (effective s m).toNat).toNat

/-- When no check of the operand fails (R209): always if immediate, else the word at the target is in memory, and if
indirect so is the word at the pointer. -/
def OperandReadable (s : State) (m : Addressing) : Prop :=
  match modeOf m with
  | .immediate => True
  | .simple    => 0 ≤ effective s m ∧ effective s m + 2 < s.memBytes
  | .indirect  => (0 ≤ effective s m ∧ effective s m + 2 < s.memBytes) ∧ pointer s m + 2 < s.memBytes

/-- The value of a readable operand (R136). -/
def operandValue (s : State) (m : Addressing) : S32 :=
  match modeOf m with
  | .immediate => target (advance s m.length) m
  | .simple    => (s.mem.word (effective s m).toNat).setWidth 32
  | .indirect  => (s.mem.word (pointer s m).toNat).setWidth 32

/-- A number `lookup` does not accept (R27). -/
abbrev InvalidNumber (k : BitVec 4) : Prop := k ∈ [6#4, 7#4, 10#4, 11#4, 12#4, 13#4, 14#4, 15#4]

/-! ### What a step changes -/

/-- The state after an instruction of length `len` that completes with no other effect (R127, R281). -/
def done (s : State) (len : Nat) : State := { s with pc := s.pc + BitVec.ofNat 32 len, engine := .running }

/-- The state after a raise (R284): the state before, Halted. -/
def haltedAt (s : State) (r : HaltReason) : State := { s with engine := .halted r }

/-- Every byte of memory reads as before, but for the `n` bytes from `a` on. -/
def SameBytesOutside (m m' : Memory) (a : Int) (n : Nat) : Prop :=
  ∀ k : Nat, ¬(a ≤ k ∧ (k : Int) < a + n) → m'.read k = m.read k

/-- Every byte of memory reads as before. -/
def SameBytes (m m' : Memory) : Prop := ∀ k : Nat, m'.read k = m.read k

/-- Every register but PC and those listed, the cancellation request and the parameters are as before. -/
def Keeps (written : List Reg) (s t : State) : Prop :=
  (Reg.a ∉ written → t.a = s.a) ∧ (Reg.x ∉ written → t.x = s.x) ∧ (Reg.l ∉ written → t.l = s.l) ∧
    (Reg.b ∉ written → t.b = s.b) ∧ (Reg.s ∉ written → t.s = s.s) ∧ (Reg.t ∉ written → t.t = s.t) ∧
    (Reg.sw ∉ written → t.sw = s.sw) ∧ t.cancel = s.cancel ∧ t.config = s.config

/-- The register a number names, as a list: empty if the number is invalid. -/
def namedReg (k : BitVec 4) : List Reg :=
  match lookup k with
  | .ok r    => [r]
  | .error _ => []

/-- The register number a format-2 instruction names as its destination (R23, 42_register_ops.md). -/
def format2Destination : Instr → Option (BitVec 4)
  | .addr _ r2 | .subr _ r2 | .mulr _ r2 | .divr _ r2 | .rmo _ r2 => some r2
  | .clear r1 | .shiftl r1 _ | .shiftr r1 _ => some r1
  | .compr _ _ | .tixr _ | .rsub => none
  | .lda _ | .ldx _ | .ldl _ | .ldb _ | .lds _ | .ldt _ | .sta _ | .stx _ | .stl _ | .stb _ | .sts _ | .stt _ => none
  | .ldch _ | .stch _ | .add _ | .sub _ | .mul _ | .div _ | .and _ | .or _ | .comp _ | .tix _ => none
  | .j _ | .jeq _ | .jgt _ | .jlt _ | .jsub _ => none

/-- The instruction is a format-2 instruction whose destination number names the register. -/
def WritesByNumber (i : Instr) (r : Reg) : Prop := ∃ k, format2Destination i = some k ∧ lookup k = .ok r

/-- The instructions that store to memory (R74). -/
def storing : List Mnemonic := [.sta, .stx, .stl, .stb, .sts, .stt, .stch]

end Sys2Proof.Machine
end

