-- ==== Sys2Proof/Certificates/Slice0/Obligations.lean ====
section
/-! DEFINITION. The statements for the provers. Each docstring names the rule of spec/ it formalises, and the decision
D<n> (92_eei_decisions.md), derivation or log entry its content rests on, if any. -/

open Sys2Proof Sys2Proof.Machine

/-! ## Encoding -/

/-- One instruction of each family, its bytes written out from the encodings of R81 to R84 (30_encoding.md), decodes to
the instruction it stands for. The opcode bytes are the spec's defaults from general knowledge (D11; log entry 3). -/
def Obligations.SpecEncodingsDecode : Prop :=
  let t := Config.default.opcodes
  decode t [0x4F#8] = .ok (.rsub, []) ∧
  decode t [0x93#8, 0x40#8] = .ok (.addr 4#4 0#4, []) ∧
  decode t [0xA8#8, 0x57#8] = .ok (.shiftr 5#4 7#4, []) ∧
  decode t [0x76#8, 0x20#8, 0x38#8] = .ok (.ldt ⟨true, false, false, false, true, .disp 56⟩, []) ∧
  decode t [0x0C#8, 0x15#8, 0xFF#8, 0xFD#8] = .ok (.sta ⟨false, false, false, false, false, .addr 393213⟩, []) ∧
  decode t [0x2C#8, 0x80#8, 0x30#8] = .ok (.tix ⟨false, false, true, false, false, .disp 48⟩, []) ∧
  decode t [0x38#8, 0x2F#8, 0xF6#8] = .ok (.jlt ⟨false, false, false, false, true, .disp (-10)⟩, [])

/-- R101 (30_encoding.md, derived there): decoding the encoding of any well-formed instruction gives the instruction
back, whatever bytes follow, with every opcode table that has one row for each mnemonic and no class twice (R86). -/
def Obligations.DecodeEncodeRoundTrip : Prop :=
  ∀ (t : OpcodeTable) (i : Instr) (rest : List Byte), t.wf = true → WellFormed i →
    decode t (encode t i ++ rest) = .ok (i, rest)

/-- R80, R81, R84, R89, R90 (30_encoding.md): what the decoder accepts is well formed, takes as many bytes as the
instruction is long, and is encoded again as those bytes with the ignored bits 0. No other bit is dropped (D7, D8, D10;
log entry 5). -/
def Obligations.DecodeDropsOnlyIgnoredBits : Prop :=
  ∀ (t : OpcodeTable) (bytes rest : List Byte) (i : Instr), t.wf = true → decode t bytes = .ok (i, rest) →
    WellFormed i ∧ ∃ used, bytes = used ++ rest ∧ used.length = i.length ∧
      encode t i = List.zipWith (· &&& ·) used (meaningfulBits i)

/-- R87 and R90 (30_encoding.md): exactly the classes outside the table decode to no instruction, whatever follows byte0;
with the default table they are the 26 that R87 lists. Which these are rests on the default opcode values (D11; log
entry 3). -/
def Obligations.UnlistedClassesDecodeToNothing : Prop :=
  (∀ (t : OpcodeTable) (b0 : Byte) (rest : List Byte),
    decode t (b0 :: rest) = .error .unimplementedOpcode ↔ ∀ row ∈ t, row.opcodeClass ≠ opcodeClass b0) ∧
  (∀ (b0 : Byte) (rest : List Byte),
    decode Config.default.opcodes (b0 :: rest) = .error .unimplementedOpcode ↔
      opcodeClass b0 ∈ [0x16#6, 0x17#6, 0x18#6, 0x19#6, 0x1C#6, 0x20#6, 0x22#6, 0x23#6, 0x2C#6, 0x2F#6] ∨
        0x30#6 ≤ opcodeClass b0)

/-- R122 (40_datapath.md): a class without a row raises UnimplementedOpcode with no further byte looked at; a row gives
the instruction and its format; of byte0, formats 1 and 2 use the class alone, formats 3 and 4 also n and i. -/
def Obligations.OpcodeClassLookup : Prop :=
  (∀ s : State, isHalted s = false → 0 ≤ s.pc.toInt → s.pc.toInt < s.memBytes →
    rowOfClass s.config.opcodes ((s.mem.read s.pc.toInt.toNat).extractLsb' 2 6) = none →
    step s = .next (haltedAt s .unimplementedOpcode)) ∧
  (∀ (t : OpcodeTable) (b0 : Byte) (rest : List Byte), rowOfClass t (b0.extractLsb' 2 6) = none →
    decode t (b0 :: rest) = .error .unimplementedOpcode) ∧
  (∀ (t : OpcodeTable) (b0 : Byte) (rest rest' : List Byte) (row : OpcodeRow) (i : Instr),
    rowOfClass t (b0.extractLsb' 2 6) = some row → decode t (b0 :: rest) = .ok (i, rest') →
    i.mnemonic = row.mnemonic ∧ fits row.mnemonic.shape i.operands = true) ∧
  (∀ (t : OpcodeTable) (b0 b0' : Byte) (rest : List Byte) (row : OpcodeRow),
    b0.extractLsb' 2 6 = b0'.extractLsb' 2 6 → rowOfClass t (b0.extractLsb' 2 6) = some row →
    isLong row.mnemonic.shape = false → decode t (b0 :: rest) = decode t (b0' :: rest)) ∧
  (∀ (t : OpcodeTable) (b0 b0' : Byte) (rest rest' : List Byte) (i : Instr) (m : Addressing),
    b0.extractLsb' 2 6 = b0'.extractLsb' 2 6 → decode t (b0 :: rest) = .ok (i, rest') → i.operands = .addressing m →
    ∃ i', decode t (b0' :: rest) = .ok (i', rest') ∧ i'.mnemonic = i.mnemonic ∧
      i'.operands = .addressing { m with n := b0'.getLsbD 1, i := b0'.getLsbD 0 })

/-! ## Fetch and step -/

/-- R121 (40_datapath.md): a PC outside memory raises OutOfBounds before any decode and stays as it is. -/
def Obligations.FetchOutsideMemoryHalts : Prop :=
  ∀ s : State, isHalted s = false → ¬(0 ≤ s.pc.toInt ∧ s.pc.toInt < s.memBytes) →
    step s = .next (haltedAt s .outOfBounds)

/-- R123 (40_datapath.md) and R84 (30_encoding.md): a format-2 instruction fetches exactly one more byte, checked, and
executes with r1 in that byte's high nibble and r2 in its low nibble. Which nibble is r1 is the spec's choice D7 (log
entry 1). -/
def Obligations.FormatTwoFetchesOneMoreByte : Prop :=
  ∀ (s : State) (row : OpcodeRow) (mk : BitVec 4 → BitVec 4 → Instr), isHalted s = false →
    0 ≤ s.pc.toInt → s.pc.toInt < s.memBytes →
    rowOfClass s.config.opcodes ((s.mem.read s.pc.toInt.toNat).extractLsb' 2 6) = some row → row.mnemonic.shape = .format2 mk →
    (s.pc.toInt + 1 < s.memBytes →
      step s = exec (mk ((s.mem.read (s.pc.toInt.toNat + 1)).extractLsb' 4 4)
        ((s.mem.read (s.pc.toInt.toNat + 1)).extractLsb' 0 4)) s) ∧
    (s.memBytes ≤ s.pc.toInt + 1 → step s = .next (haltedAt s .outOfBounds))

/-- R124 (40_datapath.md, its last sentence derived there) with R82, R83 and R88: a format-3/4 instruction always
fetches byte1, then byte2, and byte3 only if e = 1; the first byte outside memory halts. -/
def Obligations.LongFormatFetch : Prop :=
  ∀ (s : State) (row : OpcodeRow) (mk : Addressing → Instr), isHalted s = false →
    0 ≤ s.pc.toInt → s.pc.toInt < s.memBytes →
    rowOfClass s.config.opcodes ((s.mem.read s.pc.toInt.toNat).extractLsb' 2 6) = some row → row.mnemonic.shape = .format34 mk →
    let b0 := s.mem.read s.pc.toInt.toNat
    let b1 := s.mem.read (s.pc.toInt.toNat + 1)
    let b2 := s.mem.read (s.pc.toInt.toNat + 2)
    let b3 := s.mem.read (s.pc.toInt.toNat + 3)
    let m (f : AddrField) : Addressing :=
      ⟨b0.getLsbD 1, b0.getLsbD 0, b1.getLsbD 7, b1.getLsbD 6, b1.getLsbD 5, f⟩
    (s.memBytes ≤ s.pc.toInt + 2 → step s = .next (haltedAt s .outOfBounds)) ∧
    (s.pc.toInt + 2 < s.memBytes → b1.getLsbD 4 = false →
      step s = exec (mk (m (.disp (b1.extractLsb' 0 4 ++ b2).toInt))) s) ∧
    (b1.getLsbD 4 = true → s.memBytes ≤ s.pc.toInt + 3 → step s = .next (haltedAt s .outOfBounds)) ∧
    (b1.getLsbD 4 = true → s.pc.toInt + 3 < s.memBytes →
      step s = exec (mk (m (.addr (b1.extractLsb' 0 4 ++ b2 ++ b3).toNat))) s)

/-- R120 (40_datapath.md): a step of an engine that is not Halted executes the instruction the bytes at PC decode to, and
adds nothing: the advance of PC is part of the instruction's meaning. -/
def Obligations.StepRunsDecodedInstruction : Prop :=
  ∀ (s : State) (i : Instr) (rest : List Byte), isHalted s = false →
    decode s.config.opcodes (fetchWindow s) = .ok (i, rest) → step s = exec i s

/-- R120, R126 (40_datapath.md): where the bytes of a well-formed instruction stand in memory at PC, a step executes that
instruction. -/
def Obligations.StepRunsEncodedInstruction : Prop :=
  ∀ (s : State) (i : Instr), isHalted s = false → s.config.opcodes.wf = true → WellFormed i →
    BytesAt s.memBytes s.mem s.pc.toInt (encode s.config.opcodes i) → step s = exec i s

/-- R280, R281 (60_exceptions.md): `step()` always returns. From Idle or Running it completes (Running), or the decoded
instruction is RSUB with L = 0 and stops it (Returned, with PC = 0 committed: D9), or a raise halts it and drops every write
(D16); in Halted it changes nothing, nor does `run()` (D19). `load` that succeeds (D20, also in Running) and `reset` (D21)
leave Idle, and a request for cancellation keeps the engine state. D9, D16, D19, D20 and D21 are the spec's choices (log
entry 1). -/
def Obligations.EngineStateMachine : Prop :=
  (∀ (s : State) (cs : List Bool), isHalted s = true → step s = .next s ∧ run (false :: cs) s = .returned s) ∧
  (∀ s : State, isHalted s = false → ∃ t, step s = .next t ∧
    (t.engine = .running ∨
      ((∃ rest, decode s.config.opcodes (fetchWindow s) = .ok (.rsub, rest)) ∧ s.l = 0#32 ∧
        t = { s with pc := 0#32, engine := .halted .returned }) ∨
      ∃ r, r ≠ .returned ∧ t = haltedAt s r)) ∧
  (∀ (s : State) (bytes : List Byte), (loadBytes s bytes).engine = .idle) ∧
  (∀ s : State, (hostReset s).engine = .idle) ∧
  (∀ s : State, (hostCancel s).engine = s.engine)

/-- R283 (60_exceptions.md, D19): in Halted, `step()` and `run()` return and change nothing; the request the host sets
while it calls `run()` stays set. -/
def Obligations.HaltedEngineStays : Prop :=
  ∀ (s : State) (c : Bool) (cs : List Bool), isHalted s = true →
    step s = .next s ∧ run (c :: cs) s = .returned (if c then hostCancel s else s)

/-! ## Invariants and whole-machine rules -/

/-- Every step keeps the parameters (R7), the canonical form of memory, and PC = L = 0 in Halted(Returned) (R171, R173,
R285, D9). -/
def Obligations.StepKeepsInv : Prop :=
  ∀ s t : State, StateInv s → step s = .next t → StateInv t ∧ t.config = s.config

/-- The state at construction with a well-formed opcode table meets the invariant, the state after reset with the default
parameters among them, whose memory has 393216 bytes (R7, D23). -/
def Obligations.ResetMeetsInv : Prop :=
  (∀ c : Config, c.opcodes.wf = true → StateInv (State.initial c)) ∧ StateInv State.reset ∧
  State.reset.memBytes = 393216

/-- Every operation of the host keeps the invariant and the parameters (R300 in 60_exceptions.md): `load`, `reset`,
`cancel`, and `run` wherever it stands. -/
def Obligations.HostOperationsKeepInv : Prop :=
  ∀ s : State, StateInv s →
    (∀ bytes, StateInv (loadBytes s bytes) ∧ (loadBytes s bytes).config = s.config) ∧
    (StateInv (hostReset s) ∧ (hostReset s).config = s.config) ∧
    (StateInv (hostCancel s) ∧ (hostCancel s).config = s.config) ∧
    (∀ cs t, run cs s = .returned t ∨ run cs s = .stillRunning t → StateInv t ∧ t.config = s.config)

/-- R74 (20_memory.md): memory changes only through the six word stores, STCH, `load` (the bytes below its length only)
and `reset` (every byte to 0). -/
def Obligations.MemoryChangesOnlyByStores : Prop :=
  (∀ s t : State, step s = .next t → t.mem ≠ s.mem →
    ∃ i rest, decode s.config.opcodes (fetchWindow s) = .ok (i, rest) ∧ i.mnemonic ∈ storing) ∧
  (∀ (s : State) (bytes : List Byte), SameBytesOutside s.mem (loadBytes s bytes).mem 0 bytes.length) ∧
  (∀ (s : State) (k : Nat), (hostReset s).mem.read k = 0#8) ∧
  (∀ s : State, (hostCancel s).mem = s.mem)

/-- R23 (10_state.md): every register is writable, and each has only the writers the rule lists, besides the format-2
instructions that name it as a destination. PC has no clause: every instruction writes it. -/
def Obligations.RegisterWriters : Prop :=
  (∀ (s : State) (r : Reg) (v : S32), r ≠ .sw → regRead (regWrite s r v) r = v) ∧
  (∀ (s : State) (c : CondCode), ∃ v, (regWrite s .sw v).sw = c) ∧
  (∀ (i : Instr) (s t : State), exec i s = .next t →
    (t.a ≠ s.a → i.mnemonic ∈ [.lda, .ldch, .add, .sub, .mul, .div, .and, .or] ∨ WritesByNumber i .a) ∧
    (t.x ≠ s.x → i.mnemonic ∈ [.ldx, .tix, .tixr] ∨ WritesByNumber i .x) ∧
    (t.l ≠ s.l → i.mnemonic ∈ [.ldl, .jsub] ∨ WritesByNumber i .l) ∧
    (t.b ≠ s.b → i.mnemonic ∈ [.ldb] ∨ WritesByNumber i .b) ∧
    (t.s ≠ s.s → i.mnemonic ∈ [.lds] ∨ WritesByNumber i .s) ∧
    (t.t ≠ s.t → i.mnemonic ∈ [.ldt] ∨ WritesByNumber i .t) ∧
    (t.sw ≠ s.sw → i.mnemonic ∈ [.comp, .compr, .tix, .tixr] ∨ WritesByNumber i .sw))

/-- R32, R33, R34 (10_state.md), R292 (60_exceptions.md, D27): no instruction sees the engine state or the cancellation
request, and `step()` neither tests nor changes the request. -/
def Obligations.InstructionsIgnoreControlState : Prop :=
  (∀ (i : Instr) (s : State) (e : Engine), exec i (s.setEngine e) = exec i s) ∧
  (∀ (i : Instr) (s : State) (c : Bool), exec i (s.setCancel c) = mapNext (·.setCancel c) (exec i s)) ∧
  (∀ (s : State) (c : Bool), step (s.setCancel c) = mapNext (·.setCancel c) (step s))

/-- R127, R128 (40_datapath.md, R128 derived there): an instruction that completes, is no jump and does not name PC as its
destination leaves PC at the next instruction. -/
def Obligations.SequentialNextPc : Prop :=
  ∀ (i : Instr) (s t : State), i.mnemonic ∉ [.rsub, .j, .jeq, .jgt, .jlt, .jsub] → ¬WritesByNumber i .pc →
    exec i s = .next t → t.engine = .running → t.pc = s.pc + BitVec.ofNat 32 i.length

/-! ## Registers and the ALU -/

/-- R27 (10_state.md): the register lookup, number by number, and that a read and a write of a looked-up number reach that
register, number 9 through the numeric view. -/
def Obligations.RegisterLookup : Prop :=
  lookup 0#4 = .ok .a ∧ lookup 1#4 = .ok .x ∧ lookup 2#4 = .ok .l ∧ lookup 3#4 = .ok .b ∧ lookup 4#4 = .ok .s ∧
  lookup 5#4 = .ok .t ∧ lookup 8#4 = .ok .pc ∧ lookup 9#4 = .ok .sw ∧
  (∀ k, InvalidNumber k → lookup k = .error .invalidRegister) ∧
  (∀ s : State, regRead s .a = s.a ∧ regRead s .x = s.x ∧ regRead s .l = s.l ∧ regRead s .b = s.b ∧
    regRead s .s = s.s ∧ regRead s .t = s.t ∧ regRead s .pc = s.pc ∧ regRead s .sw = s.sw.toS32) ∧
  (∀ (s : State) (v : S32), regWrite s .a v = { s with a := v } ∧ regWrite s .x v = { s with x := v } ∧
    regWrite s .l v = { s with l := v } ∧ regWrite s .b v = { s with b := v } ∧ regWrite s .s v = { s with s := v } ∧
    regWrite s .t v = { s with t := v } ∧ regWrite s .pc v = { s with pc := v } ∧
    regWrite s .sw v = { s with sw := CondCode.ofS32 v })

/-- R28 (10_state.md, D6): the numeric view of SW: -1, 0, +1 on a read, the sign of the value on a write, and an exact
round trip. -/
def Obligations.SwNumericView : Prop :=
  CondCode.toS32 .less = -1#32 ∧ CondCode.toS32 .equal = 0#32 ∧ CondCode.toS32 .greater = 1#32 ∧
  (∀ v : S32, (v.toInt < 0 → CondCode.ofS32 v = .less) ∧ (v.toInt = 0 → CondCode.ofS32 v = .equal) ∧
    (0 < v.toInt → CondCode.ofS32 v = .greater)) ∧
  (∀ c : CondCode, CondCode.ofS32 c.toS32 = c)

/-- R151, R152, R157 (40_datapath.md, D2): sums, differences, products and the increment are the exact result reduced
to the s32 congruent to it modulo 2^32. -/
def Obligations.ArithmeticWraps : Prop :=
  ∀ a b : S32,
    (aluAdd a b).toInt = (a.toInt + b.toInt).bmod (2 ^ 32) ∧ (aluSub a b).toInt = (a.toInt - b.toInt).bmod (2 ^ 32) ∧
    (aluMul a b).toInt = (a.toInt * b.toInt).bmod (2 ^ 32) ∧ (aluInc a).toInt = (a.toInt + 1).bmod (2 ^ 32)

/-- R153 (40_datapath.md, D3): division truncates toward zero, and its one overflow gives -2^31. -/
def Obligations.DivisionTruncates : Prop :=
  (∀ a b : S32, b ≠ 0#32 → ¬(a = BitVec.intMin 32 ∧ b = -1#32) →
    (truncDiv a b).toInt = Int.tdiv a.toInt b.toInt) ∧
  truncDiv (BitVec.intMin 32) (-1#32) = BitVec.intMin 32

/-- R150 (40_datapath.md, D4): the comparison is signed on all 32 bits, and exchanging its operands exchanges LESS and
GREATER. -/
def Obligations.CompareIsSigned : Prop :=
  ∀ a b : S32,
    (compare32 a b = .less ↔ a.slt b = true) ∧ (compare32 a b = .equal ↔ a = b) ∧
    (compare32 a b = .greater ↔ b.slt a = true) ∧ (compare32 a b = .less ↔ compare32 b a = .greater)

/-- R155, R156 (40_datapath.md, D5): the left shift is logical and the right shift arithmetic, for the counts 1 to 16. -/
def Obligations.ShiftsAreLogicalLeftArithmeticRight : Prop :=
  ∀ (v : S32) (c : Nat), 1 ≤ c → c ≤ 16 → aluShl v c = v <<< c ∧ aluSar v c = v.sshiftRight c

/-- R154 (40_datapath.md): AND and OR act on each of the 32 bits. -/
def Obligations.BitwiseOnAllBits : Prop :=
  ∀ (a b : S32) (k : Nat), k < 32 →
    (aluAnd a b).getLsbD k = (a.getLsbD k && b.getLsbD k) ∧ (aluOr a b).getLsbD k = (a.getLsbD k || b.getLsbD k)

/-! ## Memory -/

/-- R52, R54, R55 (20_memory.md): the checked word read gives the big-endian value of three bytes at any byte address, or
raises OutOfBounds; placed in a register it is zero-extended. -/
def Obligations.WordReadIsBigEndian : Prop :=
  (∀ (size : Nat) (m : Memory) (a : Int), 0 ≤ a → a + 2 < size → ∃ w, memReadWord size m a = .ok w ∧
    w.toNat = (m.read a.toNat).toNat * 65536 + (m.read (a.toNat + 1)).toNat * 256 + (m.read (a.toNat + 2)).toNat) ∧
  (∀ (size : Nat) (m : Memory) (a : Int), a < 0 ∨ size ≤ a + 2 → memReadWord size m a = .error .outOfBounds) ∧
  (∀ w : Word24, (zext24 w).toInt = w.toNat ∧ (zext24 w).extractLsb' 24 8 = 0#8) ∧
  (zext24 0xFFFFFF#24).toInt = 16777215

/-- R56 (20_memory.md): the checked word write stores the low 24 bits, most significant byte first, and nothing else; out
of range it raises OutOfBounds and gives no memory. -/
def Obligations.WordWriteStoresLow24 : Prop :=
  (∀ (size : Nat) (m : Memory) (a : Int) (v : S32), m.wf size = true → 0 ≤ a → a + 2 < size →
    ∃ m', memWriteWord size m a v = .ok m' ∧
    m'.read a.toNat = v.extractLsb' 16 8 ∧ m'.read (a.toNat + 1) = v.extractLsb' 8 8 ∧
    m'.read (a.toNat + 2) = v.extractLsb' 0 8 ∧ SameBytesOutside m m' a 3) ∧
  (∀ (size : Nat) (m : Memory) (a : Int) (v : S32), a < 0 ∨ size ≤ a + 2 → memWriteWord size m a v = .error .outOfBounds)

/-- R58, R59 (20_memory.md): the lenient byte read gives 0 out of range, the lenient byte write stores one byte in range
and nothing out of range; neither raises. -/
def Obligations.ByteAccessesAreLenient : Prop :=
  (∀ (size : Nat) (m : Memory) (a : Int), 0 ≤ a → a < size → byteRead size m a = m.read a.toNat) ∧
  (∀ (size : Nat) (m : Memory) (a : Int), a < 0 ∨ size ≤ a → byteRead size m a = 0#8) ∧
  (∀ (size : Nat) (m : Memory) (a : Int) (v : Byte), m.wf size = true → 0 ≤ a → a < size →
    (byteWrite size m a v).read a.toNat = v ∧ SameBytesOutside m (byteWrite size m a v) a 1) ∧
  (∀ (size : Nat) (m : Memory) (a : Int) (v : Byte), a < 0 ∨ size ≤ a → byteWrite size m a v = m)

/-- R62 (20_memory.md, derived there), R60 and the round trip of W1 (95_test_vectors.md): after a word write a word read
gives the low 24 bits, and byte reads give its three bytes; the word-index accessors are the same at 3w, for the indices
below MEM_WORDS. -/
def Obligations.WordRoundTripAndMixedWidths : Prop :=
  (∀ (size : Nat) (m m' : Memory) (a : Int) (v : S32), m.wf size = true → memWriteWord size m a v = .ok m' →
    memReadWord size m' a = .ok (v.setWidth 24) ∧ byteRead size m' a = v.extractLsb' 16 8 ∧
    byteRead size m' (a + 1) = v.extractLsb' 8 8 ∧ byteRead size m' (a + 2) = v.extractLsb' 0 8) ∧
  (∀ (words : Nat) (m : Memory) (w : Int) (v : S32), m.wf (3 * words) = true → 0 ≤ w → w < words →
    ∃ m', writeWord (3 * words) m w v = .ok m' ∧ readWord (3 * words) m' w = .ok (v.setWidth 24)) ∧
  (∀ (words : Nat) (m : Memory) (w : Int) (v : S32), w < 0 ∨ words ≤ w →
    writeWord (3 * words) m w v = .error .outOfBounds ∧ readWord (3 * words) m w = .error .outOfBounds)

/-! ## Addressing -/

/-- R131 (40_datapath.md): the base of a format-3 target: p before b before direct, with PC already advanced. -/
def Obligations.FormatThreeBase : Prop :=
  ∀ (s : State) (m : Addressing) (d : Int), m.field = .disp d →
    (m.p = true → baseAddress (advance s m.length) m = (s.pc + 3#32).toInt + d) ∧
    (m.p = false → m.b = true → baseAddress (advance s m.length) m = s.b.toInt + d) ∧
    (m.p = false → m.b = false → baseAddress (advance s m.length) m = d)

/-- R132, R133, R139, R140 (40_datapath.md, D12, D33, D34): the target of both formats, modulo 2^32; format 4 ignores b and
p; x adds X in both. -/
def Obligations.TargetFormation : Prop :=
  ∀ (s : State) (m : Addressing),
    (∀ d, m.field = .disp d → target (advance s m.length) m =
      (if m.p then s.pc + 3#32 + BitVec.ofInt 32 d else if m.b then s.b + BitVec.ofInt 32 d else BitVec.ofInt 32 d) +
        (if m.x then s.x else 0#32)) ∧
    (∀ a, m.field = .addr a → target (advance s m.length) m = BitVec.ofNat 32 a + (if m.x then s.x else 0#32))

/-- R136, R137 (40_datapath.md, D26): n = 0, i = 1 is immediate, n = 1, i = 0 indirect, and n = i simple, 1 as 0; the
operand is its value where every word it reads is in memory and raises OutOfBounds otherwise. The first clauses give the
operand by n and i directly. -/
def Obligations.OperandResolution : Prop :=
  (∀ m : Addressing, (m.n = false → m.i = true → modeOf m = .immediate) ∧
    (m.n = true → m.i = false → modeOf m = .indirect) ∧ (m.n = m.i → modeOf m = .simple)) ∧
  (∀ (s : State) (m : Addressing), m.n = false → m.i = true → operand s m = .ok (target s m)) ∧
  (∀ (s : State) (m : Addressing), m.n = m.i →
    operand s m = (memReadWord s.memBytes s.mem (target s m).toInt).map (·.setWidth 32)) ∧
  (∀ (s : State) (m : Addressing), m.n = true → m.i = false →
    operand s m = (memReadWord s.memBytes s.mem (target s m).toInt).bind fun ptr =>
      (memReadWord s.memBytes s.mem ptr.toNat).map (·.setWidth 32)) ∧
  (∀ (s : State) (m : Addressing), OperandReadable s m → operand (advance s m.length) m = .ok (operandValue s m)) ∧
  (∀ (s : State) (m : Addressing), ¬OperandReadable s m → operand (advance s m.length) m = .error .outOfBounds) ∧
  (∀ (s : State) (m : Addressing),
    operand s { m with n := true, i := true } = operand s { m with n := false, i := false })

/-- R138 (40_datapath.md, D14, D15): the thirteen target-using instructions ignore n and i. -/
def Obligations.TargetUsersIgnoreModeFlags : Prop :=
  ∀ mk ∈ [Instr.sta, .stx, .stl, .stb, .sts, .stt, .ldch, .stch, .j, .jeq, .jgt, .jlt, .jsub],
    ∀ (m : Addressing) (n i : Bool) (s : State), exec (mk { m with n := n, i := i }) s = exec (mk m) s

/-! ## Loads and stores -/

/-- R209 (43_load_store.md): LDA, LDX, LDL, LDB, LDS, LDT complete with the operand in their register exactly when no
operand read is out of range, and halt with OutOfBounds otherwise, the register unchanged; a memory operand is below 2^24;
SW is never written. That the halt leaves PC at the instruction and drops every write is the spec's choice D16 (R284; log
entry 1). -/
def Obligations.WordLoads : Prop :=
  (∀ (s : State) (m : Addressing), OperandReadable s m →
    exec (.lda m) s = .next { done s m.length with a := operandValue s m } ∧
    exec (.ldx m) s = .next { done s m.length with x := operandValue s m } ∧
    exec (.ldl m) s = .next { done s m.length with l := operandValue s m } ∧
    exec (.ldb m) s = .next { done s m.length with b := operandValue s m } ∧
    exec (.lds m) s = .next { done s m.length with s := operandValue s m } ∧
    exec (.ldt m) s = .next { done s m.length with t := operandValue s m }) ∧
  (∀ (s : State) (m : Addressing), ¬OperandReadable s m →
    ∀ mk ∈ [Instr.lda, .ldx, .ldl, .ldb, .lds, .ldt], exec (mk m) s = .next (haltedAt s .outOfBounds)) ∧
  (∀ (s : State) (m : Addressing), modeOf m ≠ .immediate → (operandValue s m).toNat < 2 ^ 24)

/-- R219 (43_load_store.md): STA, STX, STL, STB, STS, STT write the low 24 bits of their register at the target, whatever n
and i, and no register or SW; with the word out of range they halt with OutOfBounds and write no byte. That the halt leaves
PC at the instruction is the spec's choice D16 (R284), and that n and i are ignored D15 (R138; log entry 1). -/
def Obligations.WordStores : Prop :=
  (∀ (s : State) (m : Addressing), 0 ≤ effective s m → effective s m + 2 < s.memBytes →
    let stored (v : S32) : Result :=
      .next { done s m.length with mem := s.mem.writeWord (effective s m).toNat (v.setWidth 24) }
    exec (.sta m) s = stored s.a ∧ exec (.stx m) s = stored s.x ∧ exec (.stl m) s = stored s.l ∧
    exec (.stb m) s = stored s.b ∧ exec (.sts m) s = stored s.s ∧ exec (.stt m) s = stored s.t) ∧
  (∀ (s : State) (m : Addressing), effective s m < 0 ∨ s.memBytes ≤ effective s m + 2 →
    ∀ mk ∈ [Instr.sta, .stx, .stl, .stb, .sts, .stt], exec (mk m) s = .next (haltedAt s .outOfBounds)) ∧
  (∀ (s : State) (m : Addressing) (n i : Bool), effective s { m with n := n, i := i } = effective s m)

/-- R230 (43_load_store.md, D32): LDCH always completes; it replaces the low byte of A by the byte at the target, 0 if the
target is outside memory, and keeps bits 31..8 of A and everything else. -/
def Obligations.CharacterLoad : Prop :=
  ∀ (s : State) (m : Addressing), ∃ v : S32,
    exec (.ldch m) s = .next { done s m.length with a := v } ∧ v.extractLsb' 8 24 = s.a.extractLsb' 8 24 ∧
    v.extractLsb' 0 8 = if 0 ≤ effective s m ∧ effective s m < s.memBytes then s.mem.read (effective s m).toNat else 0#8

/-- R231 (43_load_store.md): STCH always completes; it writes the low byte of A at the target, or nothing if the target is
outside memory. -/
def Obligations.CharacterStore : Prop :=
  (∀ (s : State) (m : Addressing), 0 ≤ effective s m → effective s m < s.memBytes →
    exec (.stch m) s =
      .next { done s m.length with mem := s.mem.write (effective s m).toNat (s.a.extractLsb' 0 8) }) ∧
  (∀ (s : State) (m : Addressing), effective s m < 0 ∨ s.memBytes ≤ effective s m →
    exec (.stch m) s = .next (done s m.length))

/-! ## Arithmetic, logic and compare -/

/-- R240, R241, R242 (44_arith_compare.md, D2 through R151 and R152), R244, R245: ADD, SUB, MUL, AND, OR complete with their
result in A when the operand is readable, SW unchanged, and halt with OutOfBounds otherwise. -/
def Obligations.ArithmeticAndLogic : Prop :=
  (∀ (s : State) (m : Addressing), OperandReadable s m →
    exec (.add m) s = .next { done s m.length with a := s.a + operandValue s m } ∧
    exec (.sub m) s = .next { done s m.length with a := s.a - operandValue s m } ∧
    exec (.mul m) s = .next { done s m.length with a := s.a * operandValue s m } ∧
    exec (.and m) s = .next { done s m.length with a := s.a &&& operandValue s m } ∧
    exec (.or m) s = .next { done s m.length with a := s.a ||| operandValue s m }) ∧
  (∀ (s : State) (m : Addressing), ¬OperandReadable s m →
    ∀ mk ∈ [Instr.add, .sub, .mul, .and, .or], exec (mk m) s = .next (haltedAt s .outOfBounds))

/-- R243 (44_arith_compare.md, D3 through R153), R287 steps 6 and 7: DIV completes with the truncated quotient in A when the
operand is readable and not 0; an unreadable operand halts with OutOfBounds first, and a 0 with DivisionByZero, with
nothing changed. -/
def Obligations.DivideAccumulator : Prop :=
  ∀ (s : State) (m : Addressing),
    (OperandReadable s m → operandValue s m ≠ 0#32 →
      exec (.div m) s = .next { done s m.length with a := s.a.sdiv (operandValue s m) }) ∧
    (OperandReadable s m → operandValue s m = 0#32 → exec (.div m) s = .next (haltedAt s .divisionByZero)) ∧
    (¬OperandReadable s m → exec (.div m) s = .next (haltedAt s .outOfBounds))

/-- R246, R247 (44_arith_compare.md, D2 and D4 through R150 and R157): COMP sets SW from A and the operand; TIX increments X
and sets SW from the incremented X and the operand, which was formed with the old X; an unreadable operand halts both with
X unchanged. -/
def Obligations.CompareAndIndex : Prop :=
  (∀ (s : State) (m : Addressing), OperandReadable s m →
    exec (.comp m) s = .next { done s m.length with sw := compare32 s.a (operandValue s m) } ∧
    exec (.tix m) s =
      .next { done s m.length with x := s.x + 1#32, sw := compare32 (s.x + 1#32) (operandValue s m) }) ∧
  (∀ (s : State) (m : Addressing), ¬OperandReadable s m →
    exec (.comp m) s = .next (haltedAt s .outOfBounds) ∧ exec (.tix m) s = .next (haltedAt s .outOfBounds))

/-! ## Control transfer -/

/-- R260 to R264 (45_control_transfer.md): J, JEQ, JGT, JLT, JSUB always complete: PC becomes the target, for the conditional
jumps only if SW matches, else the next instruction; JSUB links the next instruction in L, and from a PC in memory that
link is never 0. -/
def Obligations.JumpsAndCall : Prop :=
  ∀ (s : State) (m : Addressing),
    let tgt := target (advance s m.length) m
    let next := s.pc + BitVec.ofNat 32 m.length
    exec (.j m) s = .next { done s m.length with pc := tgt } ∧
    exec (.jeq m) s = .next { done s m.length with pc := if s.sw = .equal then tgt else next } ∧
    exec (.jgt m) s = .next { done s m.length with pc := if s.sw = .greater then tgt else next } ∧
    exec (.jlt m) s = .next { done s m.length with pc := if s.sw = .less then tgt else next } ∧
    exec (.jsub m) s = .next { done s m.length with l := next, pc := tgt } ∧
    (0 ≤ s.pc.toInt → s.pc.toInt < s.memBytes → next ≠ 0#32)

/-- R135, R266 (40_datapath.md, 45_control_transfer.md; D12, R266 derived there): a jump to a target outside memory, be it
J, JSUB or a JEQ, JGT or JLT that is taken, completes, and the next step halts with OutOfBounds at that target. -/
def Obligations.JumpOutsideMemoryHaltsNext : Prop :=
  ∀ (s : State) (m : Addressing) (i : Instr), ¬(0 ≤ effective s m ∧ effective s m < s.memBytes) →
    i = .j m ∨ i = .jsub m ∨ (i = .jeq m ∧ s.sw = .equal) ∨ (i = .jgt m ∧ s.sw = .greater) ∨
      (i = .jlt m ∧ s.sw = .less) →
    ∃ t, exec i s = .next t ∧ t.engine = .running ∧ t.pc.toInt = effective s m ∧
      step t = .next (haltedAt t .outOfBounds)

/-- R171, R172, R173 (41_rsub.md, D9): RSUB sets PC = L; with L = 0 it stops the engine with Returned and PC = 0. -/
def Obligations.ReturnFromSubroutine : Prop :=
  ∀ s : State,
    (s.l ≠ 0#32 → exec .rsub s = .next { s with pc := s.l, engine := .running }) ∧
    (s.l = 0#32 → exec .rsub s = .next { s with pc := 0#32, engine := .halted .returned })

/-- R174 (41_rsub.md): RSUB reads no memory beyond its fetch and writes no register other than PC. -/
def Obligations.RsubTouchesOnlyPc : Prop :=
  (∀ (s : State) (m : Memory), exec .rsub (s.setMem m) = mapNext (·.setMem m) (exec .rsub s)) ∧
  (∀ s t : State, exec .rsub s = .next t → Keeps [] s t)

/-! ## Register operations -/

/-- R180, R181, R182 (42_register_ops.md, D2 through R151 and R152), R196, R197, R198: ADDR, SUBR, MULR complete for valid
numbers, both operands read from the state whose PC is advanced. -/
def Obligations.RegisterArithmetic : Prop :=
  ∀ (s : State) (r1 r2 : BitVec 4) (p q : Reg), lookup r1 = .ok p → lookup r2 = .ok q →
    let s1 : State := { s with pc := s.pc + 2#32 }
    exec (.addr r1 r2) s = .next ((regWrite s1 q (regRead s1 q + regRead s1 p)).setEngine .running) ∧
    exec (.subr r1 r2) s = .next ((regWrite s1 q (regRead s1 q - regRead s1 p)).setEngine .running) ∧
    exec (.mulr r1 r2) s = .next ((regWrite s1 q (regRead s1 q * regRead s1 p)).setEngine .running)

/-- R183 (42_register_ops.md, D3 through R153): DIVR divides R[r2] by R[r1], truncating; a divisor of 0 halts with
DivisionByZero and changes nothing. -/
def Obligations.RegisterDivide : Prop :=
  ∀ (s : State) (r1 r2 : BitVec 4) (p q : Reg), lookup r1 = .ok p → lookup r2 = .ok q →
    let s1 : State := { s with pc := s.pc + 2#32 }
    (regRead s1 p ≠ 0#32 →
      exec (.divr r1 r2) s = .next ((regWrite s1 q ((regRead s1 q).sdiv (regRead s1 p))).setEngine .running)) ∧
    (regRead s1 p = 0#32 → exec (.divr r1 r2) s = .next (haltedAt s .divisionByZero))

/-- R187, R191 (42_register_ops.md), R196, R197: RMO copies R[r1] to R[r2] and CLEAR writes 0, for valid numbers. -/
def Obligations.RegisterMoveAndClear : Prop :=
  ∀ (s : State) (r1 : BitVec 4) (p : Reg), lookup r1 = .ok p →
    let s1 : State := { s with pc := s.pc + 2#32 }
    (∀ (r2 : BitVec 4) (q : Reg), lookup r2 = .ok q →
      exec (.rmo r1 r2) s = .next ((regWrite s1 q (regRead s1 p)).setEngine .running)) ∧
    exec (.clear r1) s = .next ((regWrite s1 p 0#32).setEngine .running)

/-- R188, R194 (42_register_ops.md, D2 and D4 through R150 and R157): COMPR sets SW from R[r1] and R[r2]; TIXR increments X
and sets SW from the incremented X and R[r1], read after the increment. -/
def Obligations.RegisterCompareAndIndex : Prop :=
  ∀ (s : State) (r1 : BitVec 4) (p : Reg), lookup r1 = .ok p →
    let s1 : State := { s with pc := s.pc + 2#32 }
    (∀ (r2 : BitVec 4) (q : Reg), lookup r2 = .ok q →
      exec (.compr r1 r2) s = .next { done s 2 with sw := compare32 (regRead s1 p) (regRead s1 q) }) ∧
    exec (.tixr r1) s = .next { done s 2 with
      x := s.x + 1#32
      sw := compare32 (s.x + 1#32) (if p = .x then s.x + 1#32 else regRead s1 p) }

/-- R192, R193 (42_register_ops.md, D5, D8): SHIFTL and SHIFTR shift R[r1] by the count nibble plus 1, whatever the nibble. -/
def Obligations.RegisterShift : Prop :=
  ∀ (s : State) (r1 c : BitVec 4) (p : Reg), lookup r1 = .ok p →
    let s1 : State := { s with pc := s.pc + 2#32 }
    exec (.shiftl r1 c) s = .next ((regWrite s1 p (regRead s1 p <<< (c.toNat + 1))).setEngine .running) ∧
    exec (.shiftr r1 c) s = .next ((regWrite s1 p ((regRead s1 p).sshiftRight (c.toNat + 1))).setEngine .running)

/-- R195, R284, R287 step 5 (42_register_ops.md, 60_exceptions.md; D8, D16, D17): a nibble used as a register number that is
invalid halts with InvalidRegister and changes nothing, before the divisor test of DIVR; a count nibble is no register
number. -/
def Obligations.InvalidRegisterHalts : Prop :=
  (∀ (s : State) (r1 r2 : BitVec 4), InvalidNumber r1 ∨ InvalidNumber r2 →
    ∀ mk ∈ [Instr.addr, .subr, .mulr, .divr, .rmo, .compr], exec (mk r1 r2) s = .next (haltedAt s .invalidRegister)) ∧
  (∀ (s : State) (r1 c : BitVec 4), InvalidNumber r1 →
    exec (.clear r1) s = .next (haltedAt s .invalidRegister) ∧
    exec (.tixr r1) s = .next (haltedAt s .invalidRegister) ∧
    exec (.shiftl r1 c) s = .next (haltedAt s .invalidRegister) ∧
    exec (.shiftr r1 c) s = .next (haltedAt s .invalidRegister))

/-- R198 (42_register_ops.md, derived there): with one numeric register as both operands, ADDR doubles it, SUBR gives 0,
DIVR gives 1 or halts if it is 0, and RMO changes nothing but PC. -/
def Obligations.SameRegisterOperands : Prop :=
  ∀ (s : State) (k : BitVec 4) (p : Reg), lookup k = .ok p → p ≠ .sw →
    let s1 : State := { s with pc := s.pc + 2#32 }
    exec (.addr k k) s = .next ((regWrite s1 p (2#32 * regRead s1 p)).setEngine .running) ∧
    exec (.subr k k) s = .next ((regWrite s1 p 0#32).setEngine .running) ∧
    (regRead s1 p ≠ 0#32 → exec (.divr k k) s = .next ((regWrite s1 p 1#32).setEngine .running)) ∧
    (regRead s1 p = 0#32 → exec (.divr k k) s = .next (haltedAt s .divisionByZero)) ∧
    exec (.rmo k k) s = .next (s1.setEngine .running)

/-! ## Frames -/

/-- The frame of the format-3/4 instructions that store nothing and of RSUB (R23, R64, R158): each changes only the
registers named with it, and every byte of memory reads as before. -/
def Obligations.NonStoringFrame : Prop :=
  ∀ (s t : State) (m : Addressing),
    (∀ p ∈ [(Instr.lda, Reg.a), (.ldx, .x), (.ldl, .l), (.ldb, .b), (.lds, .s), (.ldt, .t), (.ldch, .a), (.add, .a),
        (.sub, .a), (.mul, .a), (.div, .a), (.and, .a), (.or, .a), (.comp, .sw)],
      exec (p.1 m) s = .next t → Keeps [p.2] s t ∧ SameBytes s.mem t.mem) ∧
    (exec (.tix m) s = .next t → Keeps [.x, .sw] s t ∧ SameBytes s.mem t.mem) ∧
    (∀ mk ∈ [Instr.j, .jeq, .jgt, .jlt], exec (mk m) s = .next t → Keeps [] s t ∧ SameBytes s.mem t.mem) ∧
    (exec (.jsub m) s = .next t → Keeps [.l] s t ∧ SameBytes s.mem t.mem) ∧
    (exec .rsub s = .next t → Keeps [] s t ∧ SameBytes s.mem t.mem)

/-- The frame of the stores (R219, R231): no register but PC changes, and every byte outside the three, or the one, at the
target reads as before. -/
def Obligations.StoreFrame : Prop :=
  ∀ (s t : State) (m : Addressing),
    (∀ mk ∈ [Instr.sta, .stx, .stl, .stb, .sts, .stt],
      exec (mk m) s = .next t → Keeps [] s t ∧ SameBytesOutside s.mem t.mem (effective s m) 3) ∧
    (exec (.stch m) s = .next t → Keeps [] s t ∧ SameBytesOutside s.mem t.mem (effective s m) 1)

/-- The frame of format 2 (R23, R64): each changes only the register its destination number names (COMPR: SW; TIXR: X and
SW), and every byte of memory reads as before. -/
def Obligations.RegisterOperationFrame : Prop :=
  ∀ (s t : State) (r1 r2 : BitVec 4),
    (∀ mk ∈ [Instr.addr, .subr, .mulr, .divr, .rmo],
      exec (mk r1 r2) s = .next t → Keeps (namedReg r2) s t ∧ SameBytes s.mem t.mem) ∧
    (∀ mk ∈ [Instr.shiftl, .shiftr],
      exec (mk r1 r2) s = .next t → Keeps (namedReg r1) s t ∧ SameBytes s.mem t.mem) ∧
    (exec (.clear r1) s = .next t → Keeps (namedReg r1) s t ∧ SameBytes s.mem t.mem) ∧
    (exec (.compr r1 r2) s = .next t → Keeps [.sw] s t ∧ SameBytes s.mem t.mem) ∧
    (exec (.tixr r1) s = .next t → Keeps [.x, .sw] s t ∧ SameBytes s.mem t.mem)

/-! ## The control port -/

/-- R320, R321, R302 (70_reset_and_hazards.md, 60_exceptions.md; D20, D21, D24, D27): `load` puts its bytes from address 0 on,
drops those past the end of memory, sets PC = 0 and Idle and changes nothing else; a failed load changes nothing; `reset`
gives every register 0, SW EQUAL, every byte 0, Idle and no request, and keeps the parameters. -/
def Obligations.HostLoadAndReset : Prop :=
  (∀ (s : State) (bytes : List Byte), s.mem.wf s.memBytes = true →
    (∀ (k : Nat) (h : k < bytes.length), k < s.memBytes → (loadBytes s bytes).mem.read k = bytes[k]) ∧
    (∀ k : Nat, bytes.length ≤ k ∨ s.memBytes ≤ k → (loadBytes s bytes).mem.read k = s.mem.read k) ∧
    loadBytes s bytes = { s with mem := (loadBytes s bytes).mem, pc := 0#32, engine := .idle } ∧
    hostLoad s (some bytes) = .loaded (loadBytes s bytes)) ∧
  (∀ s : State, hostLoad s none = .loadError s) ∧
  (∀ s : State, (∀ r, regRead (hostReset s) r = 0#32) ∧ (hostReset s).sw = .equal ∧
    (∀ k, (hostReset s).mem.read k = 0#8) ∧ (hostReset s).engine = .idle ∧ (hostReset s).cancel = false ∧
    (hostReset s).config = s.config)

/-- R282 (60_exceptions.md): with no request for cancellation `run()` is `step()` repeated until Halted: after the steps
that reach a Halted state it returns that state, and before that it is still running. -/
def Obligations.RunRepeatsStep : Prop :=
  ∀ (n : Nat) (s t : State), s.cancel = false → Host.Core.run Sys2Proof.core n s = .next t →
    (isHalted t = true → run (List.replicate (n + 1) false) s = .returned t) ∧
    (isHalted t = false → run (List.replicate n false) s = .stillRunning t)

/-- R292 (60_exceptions.md, D27): a request set before or at a step boundary makes `run()` return before the next step with
the request cleared and everything else, the engine state included, as it was. -/
def Obligations.CancellationReturns : Prop :=
  ∀ (s : State) (c : Bool) (cs : List Bool), isHalted s = false → c = true ∨ s.cancel = true →
    run (c :: cs) s = .returned { s with cancel := false }

/-! ## The encoding contract -/

/-- R98, R101 (30_encoding.md; C3, C4, R101 derived there): the three bytes of format 3 decode to the mnemonic in simple
mode, and executed at the location counter the core's target is the one the encoder aimed at, in base-relative form if B
holds the base. -/
def Obligations.AssembledFormatThreeReachesTarget : Prop :=
  ∀ (t : OpcodeTable) (k : Mnemonic) (s : State) (tgt : Int) (base : Option Int) (bytes rest : List Byte),
    t.wf = true → isLong k.shape = true → (∀ v, base = some v → s.b.toInt = v) →
    asmFormat3 t k s.pc.toInt tgt base = .ok bytes →
    bytes.length = 3 ∧ ∃ i m, decode t (bytes ++ rest) = .ok (i, rest) ∧ i.mnemonic = k ∧ i.operands = .addressing m ∧
      m.length = 3 ∧ modeOf m = .simple ∧ target (advance s 3) m = wrap32 tgt

/-- R97, R99, R101 (30_encoding.md; C2, D39, D42, R101 derived there): the four bytes of format 4 decode to the mnemonic in
simple mode with the target aimed at; format 2 decodes to its mnemonic and numbers, and an omitted r2 is the nibble 0 of
byte1 for every format-2 mnemonic; RSUB is its opcode byte alone, 4C in the default table (D11; log entry 3). -/
def Obligations.AssembledFormatFourReachesTarget : Prop :=
  (∀ (t : OpcodeTable) (k : Mnemonic) (s : State) (tgt : Int) (bytes rest : List Byte),
    t.wf = true → isLong k.shape = true → asmFormat4 t k tgt = .ok bytes →
    bytes.length = 4 ∧ ∃ i m, decode t (bytes ++ rest) = .ok (i, rest) ∧ i.mnemonic = k ∧ i.operands = .addressing m ∧
      m.length = 4 ∧ modeOf m = .simple ∧ target (advance s 4) m = wrap32 tgt) ∧
  (∀ (t : OpcodeTable) (k : Mnemonic) (r1 r2 : BitVec 4) (rest : List Byte), t.wf = true →
    k ∈ [.addr, .subr, .mulr, .divr, .rmo, .compr, .shiftl, .shiftr] →
    (∃ i, decode t (asmFormat2 t k r1 (some r2) ++ rest) = .ok (i, rest) ∧ i.mnemonic = k ∧
      i.operands = .nibbles r1 r2) ∧
    ∃ i, decode t (asmFormat2 t k r1 none ++ rest) = .ok (i, rest) ∧ i.mnemonic = k ∧ i.operands = .nibbles r1 0#4) ∧
  (∀ (t : OpcodeTable) (k : Mnemonic) (r1 : BitVec 4) (rest : List Byte), t.wf = true → k ∈ [.clear, .tixr] →
    asmFormat2 t k r1 none = [opcodeOf t k, r1 ++ 0#4] ∧
    ∃ i, decode t (asmFormat2 t k r1 none ++ rest) = .ok (i, rest) ∧ i.mnemonic = k ∧ i.operands = .nibbles r1 0#4) ∧
  (∀ (t : OpcodeTable) (rest : List Byte), t.wf = true → decode t (asmFormat1 t .rsub ++ rest) = .ok (.rsub, rest)) ∧
  asmFormat1 Config.default.opcodes .rsub = [0x4C#8]
end

