-- ==== Sys2Proof/Laws/Decode.lean ====
section
/-! SUPPORT. The laws of the opcode table and of the bit fields of an encoding. -/

namespace Sys2Proof

/-! ### The opcode table -/

@[simp] theorem opcodeClass_opcodeByte (c : BitVec 6) : opcodeClass (opcodeByte c) = c := by
  revert c
  decide

/-- An opcode byte is byte0 with bits 1..0 cleared (R85). -/
theorem opcodeByte_opcodeClass (b0 : Byte) : opcodeByte (opcodeClass b0) = b0 &&& 0xFC#8 := by
  revert b0
  decide

/-- In a well-formed table each mnemonic has one row, and no two rows share a class (R86). -/
theorem OpcodeTable.wf_iff {t : OpcodeTable} :
    t.wf = true ↔ (t.map (·.mnemonic)).Perm (Config.default.opcodes.map (·.mnemonic)) ∧ (t.map (·.opcodeClass)).Nodup := by
  simp [OpcodeTable.wf, List.isPerm_iff]

theorem Config.default_wf : Config.default.opcodes.wf = true := by decide

/-- A row found by class is in the table and has that class. -/
theorem rowOfClass_some {t : OpcodeTable} {c : BitVec 6} {row : OpcodeRow} (h : rowOfClass t c = some row) :
    row ∈ t ∧ row.opcodeClass = c :=
  ⟨List.mem_of_find?_eq_some h, by simpa using List.find?_some h⟩

/-- A class has no row exactly if no row of the table has it (R87, R90). -/
theorem rowOfClass_none {t : OpcodeTable} {c : BitVec 6} :
    rowOfClass t c = none ↔ ∀ row ∈ t, row.opcodeClass ≠ c := by
  simp [rowOfClass, List.find?_eq_none]

/-- A row of a table without repeats is the one a search by its class finds. -/
theorem rowOfClass_mem {t : OpcodeTable} {row : OpcodeRow} (hn : (t.map (·.opcodeClass)).Nodup) (h : row ∈ t) :
    rowOfClass t row.opcodeClass = some row := by
  cases hr : rowOfClass t row.opcodeClass with
  | none => exact absurd rfl (rowOfClass_none.mp hr row h)
  | some r =>
    obtain ⟨hm, hc⟩ := rowOfClass_some hr
    rw [List.inj_on_of_nodup_map hn hm h hc]

/-- In a well-formed table a row's opcode byte is the one its mnemonic has. -/
theorem opcodeOf_mem {t : OpcodeTable} {row : OpcodeRow} (hw : t.wf = true) (h : row ∈ t) :
    opcodeOf t row.mnemonic = opcodeByte row.opcodeClass := by
  have hn : (t.map (·.mnemonic)).Nodup := (OpcodeTable.wf_iff.mp hw).1.nodup_iff.mpr (by decide)
  unfold opcodeOf
  cases hr : t.find? fun r => r.mnemonic == row.mnemonic with
  | none => exact absurd (by simp) (List.find?_eq_none.mp hr row h)
  | some r =>
    have hk : r.mnemonic = row.mnemonic := by simpa using List.find?_some hr
    rw [List.inj_on_of_nodup_map hn (List.mem_of_find?_eq_some hr) h hk]

/-- In a well-formed table every mnemonic has a row. -/
theorem OpcodeTable.exists_row {t : OpcodeTable} (hw : t.wf = true) (k : Mnemonic) : ∃ row ∈ t, row.mnemonic = k := by
  have hk : k ∈ t.map (·.mnemonic) := (OpcodeTable.wf_iff.mp hw).1.mem_iff.mpr (by cases k <;> decide)
  simpa using hk

/-- In a well-formed table, looking up the class of a mnemonic's opcode byte finds that mnemonic's row. -/
theorem rowOfClass_opcodeOf {t : OpcodeTable} (hw : t.wf = true) (k : Mnemonic) :
    rowOfClass t (opcodeClass (opcodeOf t k)) = some ⟨k, opcodeClass (opcodeOf t k)⟩ := by
  obtain ⟨row, h, rfl⟩ := OpcodeTable.exists_row hw k
  rw [opcodeOf_mem hw h, opcodeClass_opcodeByte, rowOfClass_mem (OpcodeTable.wf_iff.mp hw).2 h]

/-- An instruction is built from its operand fields by its mnemonic's format. -/
theorem Instr.mnemonic_shape (i : Instr) :
    match i.mnemonic.shape, i.operands with
    | .format1 i', .none           => i' = i
    | .format2 mk, .nibbles hi lo  => mk hi lo = i
    | .format34 mk, .addressing m  => mk m = i
    | _, _                         => False := by
  cases i <;> rfl

/-- What a mnemonic's format builds has that mnemonic and the fields it is built from, but for the r2 nibble that CLEAR
and TIXR do not use (R89). -/
theorem Mnemonic.shape_spec (k : Mnemonic) :
    match k.shape with
    | .format1 i   => i.mnemonic = k ∧ i.operands = .none
    | .format2 mk  => ∀ hi lo, (mk hi lo).mnemonic = k ∧
        (mk hi lo).operands = .nibbles hi (if k = .clear ∨ k = .tixr then 0#4 else lo)
    | .format34 mk => ∀ m, (mk m).mnemonic = k ∧ (mk m).operands = .addressing m := by
  cases k <;> simp [Mnemonic.shape, Instr.mnemonic, Instr.operands]

/-! ### byte0 and byte1 of formats 3 and 4 -/

@[simp] theorem opcodeClass_append (c : BitVec 6) (n i : Bool) :
    opcodeClass (c ++ BitVec.ofBool n ++ BitVec.ofBool i) = c := by
  revert c n i
  decide

@[simp] theorem byte0_n (c : BitVec 6) (n i : Bool) : (c ++ BitVec.ofBool n ++ BitVec.ofBool i)[1] = n := by
  revert c n i
  decide

@[simp] theorem byte0_i (c : BitVec 6) (n i : Bool) : (c ++ BitVec.ofBool n ++ BitVec.ofBool i)[0] = i := by
  revert c n i
  decide

@[simp] theorem encodeByte1_x (m : Addressing) (e : Bool) (v : BitVec 4) : (encodeByte1 m e v)[7] = m.x := by
  rw [← BitVec.getLsbD_eq_getElem]
  obtain ⟨n, i, x, b, p, f⟩ := m
  revert x b p e v
  simp only [encodeByte1]
  decide

@[simp] theorem encodeByte1_b (m : Addressing) (e : Bool) (v : BitVec 4) : (encodeByte1 m e v)[6] = m.b := by
  rw [← BitVec.getLsbD_eq_getElem]
  obtain ⟨n, i, x, b, p, f⟩ := m
  revert x b p e v
  simp only [encodeByte1]
  decide

@[simp] theorem encodeByte1_p (m : Addressing) (e : Bool) (v : BitVec 4) : (encodeByte1 m e v)[5] = m.p := by
  rw [← BitVec.getLsbD_eq_getElem]
  obtain ⟨n, i, x, b, p, f⟩ := m
  revert x b p e v
  simp only [encodeByte1]
  decide

@[simp] theorem encodeByte1_e (m : Addressing) (e : Bool) (v : BitVec 4) : (encodeByte1 m e v)[4] = e := by
  rw [← BitVec.getLsbD_eq_getElem]
  obtain ⟨n, i, x, b, p, f⟩ := m
  revert x b p e v
  simp only [encodeByte1]
  decide

@[simp] theorem encodeByte1_top (m : Addressing) (e : Bool) (v : BitVec 4) :
    (encodeByte1 m e v).extractLsb' 0 4 = v := by
  obtain ⟨n, i, x, b, p, f⟩ := m
  revert x b p e v
  simp only [encodeByte1]
  decide

/-! ### byte1 of format 2 -/

@[simp] theorem nibbles_hi (hi lo : BitVec 4) : (hi ++ lo).extractLsb' 4 4 = hi := by
  revert hi lo
  decide

@[simp] theorem nibbles_lo (hi lo : BitVec 4) : (hi ++ lo).extractLsb' 0 4 = lo := by
  revert hi lo
  decide

/-! ### Fields put together from parts -/

theorem append_left {j k : Nat} (u : BitVec j) (v : BitVec k) : (u ++ v).extractLsb' k j = u := by
  ext n hn
  simp [BitVec.getLsbD_append, hn]

theorem append_right {j k : Nat} (u : BitVec j) (v : BitVec k) : (u ++ v).extractLsb' 0 k = v := by
  ext n hn
  simp [BitVec.getLsbD_append, hn]

theorem append_middle {i j k : Nat} (u : BitVec i) (v : BitVec j) (w : BitVec k) :
    (u ++ v ++ w).extractLsb' k j = v := by
  ext n hn
  simp [BitVec.getLsbD_append, hn]

theorem append_first {i j k : Nat} (u : BitVec i) (v : BitVec j) (w : BitVec k) :
    (u ++ v ++ w).extractLsb' (k + j) i = u := by
  ext n hn
  have h1 : ¬k + j + n < k := by omega
  have h2 : ¬k + j + n - k < j := by omega
  have h3 : k + j + n - k - j = n := by omega
  simp [BitVec.getLsbD_append, hn, h1, h2, h3]

@[simp] theorem field12_hi (u : BitVec 4) (v : Byte) : (u ++ v : BitVec 12).extractLsb' 8 4 = u := append_left u v
@[simp] theorem field12_lo (u : BitVec 4) (v : Byte) : (u ++ v : BitVec 12).extractLsb' 0 8 = v := append_right u v
@[simp] theorem field20_hi (u : BitVec 4) (v w : Byte) : (u ++ v ++ w : BitVec 20).extractLsb' 16 4 = u :=
  append_first u v w
@[simp] theorem field20_mid (u : BitVec 4) (v w : Byte) : (u ++ v ++ w : BitVec 20).extractLsb' 8 8 = v :=
  append_middle u v w
@[simp] theorem field20_lo (u : BitVec 4) (v w : Byte) : (u ++ v ++ w : BitVec 20).extractLsb' 0 8 = w :=
  append_right (u ++ v) w

/-! ### The address fields -/

/-- A 12-bit field is a displacement in [-2048, 2047] (R88). -/
theorem sext12_range (v : BitVec 12) : -2048 ≤ sext12 v ∧ sext12 v ≤ 2047 := by
  have h1 : -2 ^ 11 ≤ v.toInt := BitVec.le_toInt v
  have h2 : v.toInt < 2 ^ 11 := BitVec.toInt_lt
  simp only [sext12]
  omega

@[simp] theorem ofInt_sext12 (v : BitVec 12) : BitVec.ofInt 12 (sext12 v) = v := BitVec.ofInt_toInt

/-- The two parts of a displacement put together again (R88). -/
theorem sext12_parts {d : Int} (h1 : -2048 ≤ d) (h2 : d ≤ 2047) :
    sext12 ((BitVec.ofInt 12 d).extractLsb' 8 4 ++ (BitVec.ofInt 12 d).extractLsb' 0 8) = d := by
  rw [BitVec.extractLsb'_append_extractLsb'_eq_extractLsb' (start₂ := 8) (start₁ := 0) (len₁ := 8) rfl]
  simp only [sext12, BitVec.extractLsb'_eq_self, BitVec.toInt_ofInt]
  exact Int.bmod_eq_of_le (by omega) (by omega)

/-- The three parts of a format-4 address put together again (R88). -/
theorem addr20_parts {a : Nat} (h : a ≤ 1048575) :
    ((BitVec.ofNat 20 a).extractLsb' 16 4 ++ (BitVec.ofNat 20 a).extractLsb' 8 8 ++
      (BitVec.ofNat 20 a).extractLsb' 0 8).toNat = a := by
  rw [BitVec.extractLsb'_append_extractLsb'_eq_extractLsb' (start₂ := 16) (start₁ := 8) (len₁ := 8) rfl,
    BitVec.extractLsb'_append_extractLsb'_eq_extractLsb' (start₂ := 8) (start₁ := 0) (len₁ := 8) rfl]
  simp only [BitVec.extractLsb'_eq_self, BitVec.toNat_ofNat]
  omega

end Sys2Proof
end

