-- ==== Sys2Proof/Laws/Memory.lean ====
section
/-! SUPPORT. The laws of memory: a read after a write, and the canonical form, which every write keeps. -/

namespace Sys2Proof.Machine

variable {size : Nat}

/-! ### The canonical form -/

theorem Memory.wfFrom_cons {lo k : Nat} {v : Byte} {m : Memory} :
    Memory.wfFrom size lo ((k, v) :: m) = true ↔ lo ≤ k ∧ k < size ∧ v ≠ 0#8 ∧ Memory.wfFrom size (k + 1) m = true := by
  simp [Memory.wfFrom, and_assoc]

theorem Memory.wfFrom_mono {lo lo' : Nat} {m : Memory} (h : lo' ≤ lo) (hm : Memory.wfFrom size lo m = true) :
    Memory.wfFrom size lo' m = true := by
  cases m with
  | nil => rfl
  | cons c m =>
    obtain ⟨h1, h2⟩ := Memory.wfFrom_cons.mp hm
    exact Memory.wfFrom_cons.mpr ⟨h.trans h1, h2⟩

/-- No address below the first that may be listed holds anything but 0. -/
theorem Memory.read_below {lo a : Nat} {m : Memory} (hm : Memory.wfFrom size lo m = true) (h : a < lo) : m.read a = 0#8 := by
  induction m generalizing lo with
  | nil => rfl
  | cons c m ih =>
    obtain ⟨h1, -, -, h4⟩ := Memory.wfFrom_cons.mp hm
    have hk : a ≠ c.1 := by omega
    simpa [Memory.read, hk] using ih h4 (by omega)

theorem Memory.write_wfFrom {lo a : Nat} {m : Memory} (v : Byte) (hm : Memory.wfFrom size lo m = true) (hlo : lo ≤ a)
    (ha : a < size) : Memory.wfFrom size lo (m.write a v) = true := by
  induction m generalizing lo with
  | nil =>
    by_cases hv : v = 0#8
    · simp [Memory.write, hv, Memory.wfFrom]
    · simp [Memory.write, hv, Memory.wfFrom, hlo, ha]
  | cons c m ih =>
    obtain ⟨h1, h2, h3, h4⟩ := Memory.wfFrom_cons.mp hm
    by_cases hv : v = 0#8
    · rcases lt_trichotomy a c.1 with h | h | h
      · simpa [Memory.write, h, hv] using hm
      · simpa [Memory.write, h, hv] using Memory.wfFrom_mono (by omega) h4
      · have h' : ¬a < c.1 := by omega
        have h'' : a ≠ c.1 := by omega
        simp only [Memory.write, h', h'', if_false]
        exact Memory.wfFrom_cons.mpr ⟨h1, h2, h3, ih h4 (by omega)⟩
    · rcases lt_trichotomy a c.1 with h | h | h
      · simp only [Memory.write, h, hv, if_true, if_false]
        exact Memory.wfFrom_cons.mpr ⟨hlo, ha, hv, Memory.wfFrom_cons.mpr ⟨by omega, h2, h3, h4⟩⟩
      · subst h
        simp only [Memory.write, lt_irrefl, hv, if_true, if_false]
        exact Memory.wfFrom_cons.mpr ⟨h1, h2, hv, h4⟩
      · have h' : ¬a < c.1 := by omega
        have h'' : a ≠ c.1 := by omega
        simp only [Memory.write, h', h'', if_false]
        exact Memory.wfFrom_cons.mpr ⟨h1, h2, h3, ih h4 (by omega)⟩

theorem Memory.write_wf {a : Nat} {m : Memory} (v : Byte) (hm : m.wf size = true) (ha : a < size) :
    (m.write a v).wf size = true := Memory.write_wfFrom v hm (Nat.zero_le a) ha

/-! ### Read after write -/

theorem Memory.read_write_same {lo a : Nat} {m : Memory} (v : Byte) (hm : Memory.wfFrom size lo m = true) :
    (m.write a v).read a = v := by
  induction m generalizing lo with
  | nil => by_cases hv : v = 0#8 <;> simp [Memory.write, Memory.read, hv]
  | cons c m ih =>
    obtain ⟨-, -, -, h4⟩ := Memory.wfFrom_cons.mp hm
    rcases lt_trichotomy a c.1 with h | h | h
    · by_cases hv : v = 0#8
      · have hr : Memory.read m a = 0#8 := Memory.read_below h4 (by omega)
        have hk : a ≠ c.1 := by omega
        simp [Memory.write, Memory.read, h, hv, hk, hr]
      · simp [Memory.write, Memory.read, h, hv]
    · subst h
      by_cases hv : v = 0#8
      · simpa [Memory.write, Memory.read, hv] using Memory.read_below h4 (Nat.lt_succ_self _)
      · simp [Memory.write, Memory.read, hv]
    · have h' : ¬a < c.1 := by omega
      have h'' : a ≠ c.1 := by omega
      simpa [Memory.write, Memory.read, h', h''] using ih h4

theorem Memory.read_write_other {a k : Nat} {m : Memory} (v : Byte) (h : k ≠ a) : (m.write a v).read k = m.read k := by
  induction m with
  | nil => by_cases hv : v = 0#8 <;> simp [Memory.write, Memory.read, hv, h]
  | cons c m ih =>
    rcases lt_trichotomy a c.1 with hc | hc | hc
    · by_cases hv : v = 0#8 <;> simp [Memory.write, Memory.read, hc, hv, h]
    · subst hc
      by_cases hv : v = 0#8 <;> simp [Memory.write, Memory.read, hv, h]
    · have h' : ¬a < c.1 := by omega
      have h'' : a ≠ c.1 := by omega
      simp [Memory.write, Memory.read, h', h'', ih]

/-! ### Words -/

theorem Memory.writeWord_wf {a : Nat} {m : Memory} (w : Word24) (hm : m.wf size = true) (ha : a + 2 < size) :
    (m.writeWord a w).wf size = true :=
  Memory.write_wf _ (Memory.write_wf _ (Memory.write_wf _ hm (by omega)) (by omega)) ha

theorem Memory.read_writeWord_other {a k : Nat} {m : Memory} (w : Word24) (h : k < a ∨ a + 2 < k) :
    (m.writeWord a w).read k = m.read k := by
  simp only [Memory.writeWord]
  rw [Memory.read_write_other _ (by omega), Memory.read_write_other _ (by omega), Memory.read_write_other _ (by omega)]

/-- The three bytes a word write leaves (R56). -/
theorem Memory.read_writeWord {a : Nat} {m : Memory} (w : Word24) (hm : m.wf size = true) (ha : a + 2 < size) :
    (m.writeWord a w).read a = w.extractLsb' 16 8 ∧ (m.writeWord a w).read (a + 1) = w.extractLsb' 8 8 ∧
      (m.writeWord a w).read (a + 2) = w.extractLsb' 0 8 := by
  have h0 : (m.write a (w.extractLsb' 16 8)).wf size = true := Memory.write_wf _ hm (by omega)
  have h1 : ((m.write a (w.extractLsb' 16 8)).write (a + 1) (w.extractLsb' 8 8)).wf size = true :=
    Memory.write_wf _ h0 (by omega)
  refine ⟨?_, ?_, ?_⟩
  · rw [Memory.writeWord, Memory.read_write_other _ (by omega), Memory.read_write_other _ (by omega),
      Memory.read_write_same _ hm]
  · rw [Memory.writeWord, Memory.read_write_other _ (by omega), Memory.read_write_same _ h0]
  · rw [Memory.writeWord, Memory.read_write_same _ h1]

/-! ### The checked and the lenient accesses, each in one lemma -/

theorem byteInRange_iff {a : Int} : byteInRange size a = true ↔ 0 ≤ a ∧ a < size := by simp [byteInRange]

theorem wordInRange_iff {a : Int} : wordInRange size a = true ↔ 0 ≤ a ∧ a + 2 < size := by simp [wordInRange]

theorem fetchByte_cases (size : Nat) (m : Memory) (a : Int) :
    ((0 ≤ a ∧ a < size) ∧ fetchByte size m a = .ok (m.read a.toNat)) ∨
      (¬(0 ≤ a ∧ a < size) ∧ fetchByte size m a = .error .outOfBounds) := by
  by_cases h : byteInRange size a = true
  · exact .inl ⟨byteInRange_iff.mp h, by simp [fetchByte, h]⟩
  · exact .inr ⟨fun h' => h (byteInRange_iff.mpr h'), by simp [fetchByte, h]⟩

theorem memReadWord_cases (size : Nat) (m : Memory) (a : Int) :
    ((0 ≤ a ∧ a + 2 < size) ∧ memReadWord size m a = .ok (m.word a.toNat)) ∨
      (¬(0 ≤ a ∧ a + 2 < size) ∧ memReadWord size m a = .error .outOfBounds) := by
  by_cases h : wordInRange size a = true
  · exact .inl ⟨wordInRange_iff.mp h, by simp [memReadWord, h]⟩
  · exact .inr ⟨fun h' => h (wordInRange_iff.mpr h'), by simp [memReadWord, h]⟩

theorem memWriteWord_cases (size : Nat) (m : Memory) (a : Int) (v : S32) :
    ((0 ≤ a ∧ a + 2 < size) ∧ memWriteWord size m a v = .ok (m.writeWord a.toNat (low24 v))) ∨
      (¬(0 ≤ a ∧ a + 2 < size) ∧ memWriteWord size m a v = .error .outOfBounds) := by
  by_cases h : wordInRange size a = true
  · exact .inl ⟨wordInRange_iff.mp h, by simp [memWriteWord, h]⟩
  · exact .inr ⟨fun h' => h (wordInRange_iff.mpr h'), by simp [memWriteWord, h]⟩

theorem byteWrite_cases (size : Nat) (m : Memory) (a : Int) (v : Byte) :
    ((0 ≤ a ∧ a < size) ∧ byteWrite size m a v = m.write a.toNat v) ∨
      (¬(0 ≤ a ∧ a < size) ∧ byteWrite size m a v = m) := by
  by_cases h : byteInRange size a = true
  · exact .inl ⟨byteInRange_iff.mp h, by simp [byteWrite, h]⟩
  · exact .inr ⟨fun h' => h (byteInRange_iff.mpr h'), by simp [byteWrite, h]⟩

theorem memWriteWord_wf {m m' : Memory} {a : Int} {v : S32} (hm : m.wf size = true) (h : memWriteWord size m a v = .ok m') :
    m'.wf size = true := by
  obtain ⟨hr, he⟩ | ⟨-, he⟩ := memWriteWord_cases size m a v
  · cases he.symm.trans h
    exact Memory.writeWord_wf _ hm (by omega)
  · cases he.symm.trans h

theorem byteWrite_wf {m : Memory} (a : Int) (v : Byte) (hm : m.wf size = true) : (byteWrite size m a v).wf size = true := by
  obtain ⟨hr, he⟩ | ⟨-, he⟩ := byteWrite_cases size m a v
  · rw [he]
    exact Memory.write_wf _ hm (by omega)
  · rwa [he]

theorem writeBytes_wf {m : Memory} {a : Int} (vs : List Byte) (hm : m.wf size = true) :
    (writeBytes size m a vs).wf size = true := by
  induction vs generalizing m a with
  | nil => exact hm
  | cons v vs ih => exact ih (a := a + 1) (byteWrite_wf a v hm)

/-- A lenient byte write leaves every other byte as it was (R59). -/
theorem read_byteWrite_other {m : Memory} {a : Int} {k : Nat} (v : Byte) (h : (k : Int) ≠ a) :
    (byteWrite size m a v).read k = m.read k := by
  obtain ⟨hr, he⟩ | ⟨-, he⟩ := byteWrite_cases size m a v
  · rw [he]
    exact Memory.read_write_other _ (by omega)
  · rw [he]

/-- Bytes written one after the other change no byte outside their range (R321). -/
theorem read_writeBytes_other {m : Memory} {a : Int} {k : Nat} (vs : List Byte)
    (h : (k : Int) < a ∨ a + vs.length ≤ k) : (writeBytes size m a vs).read k = m.read k := by
  induction vs generalizing m a with
  | nil => rfl
  | cons v vs ih =>
    simp only [List.length_cons] at h
    rw [writeBytes, ih (by omega), read_byteWrite_other v (by omega)]

/-- Bytes written one after the other read back, where they are in memory (R321). -/
theorem read_writeBytes {m : Memory} {a k : Nat} (vs : List Byte) (hm : m.wf size = true) (hk : k < vs.length)
    (hr : a + k < size) : (writeBytes size m a vs).read (a + k) = vs[k] := by
  induction vs generalizing m a k with
  | nil => simp at hk
  | cons v vs ih =>
    have hc : (a : Int) + 1 = ((a + 1 : Nat) : Int) := by push_cast; rfl
    rw [writeBytes, hc]
    cases k with
    | zero =>
      obtain ⟨-, he⟩ | ⟨he, -⟩ := byteWrite_cases size m a v
      · rw [read_writeBytes_other vs (by omega), he]
        exact Memory.read_write_same v hm
      · omega
    | succ k =>
      have h1 : a + (k + 1) = a + 1 + k := by omega
      rw [h1]
      exact ih (byteWrite_wf a v hm) (by simpa using hk) (by omega)

end Sys2Proof.Machine
end

