-- ==== Sys2Proof/Laws/State.lean ====
section
/-! SUPPORT. What each setter of State does to each field: the field it names takes the value, every other stays. -/

namespace Sys2Proof.Machine

variable (s : State)

/-! ### setA -/

@[simp] theorem State.setA_a (v : S32) : (s.setA v).a = v := rfl
@[simp] theorem State.setA_x (v : S32) : (s.setA v).x = s.x := rfl
@[simp] theorem State.setA_l (v : S32) : (s.setA v).l = s.l := rfl
@[simp] theorem State.setA_b (v : S32) : (s.setA v).b = s.b := rfl
@[simp] theorem State.setA_s (v : S32) : (s.setA v).s = s.s := rfl
@[simp] theorem State.setA_t (v : S32) : (s.setA v).t = s.t := rfl
@[simp] theorem State.setA_pc (v : S32) : (s.setA v).pc = s.pc := rfl
@[simp] theorem State.setA_sw (v : S32) : (s.setA v).sw = s.sw := rfl
@[simp] theorem State.setA_mem (v : S32) : (s.setA v).mem = s.mem := rfl
@[simp] theorem State.setA_engine (v : S32) : (s.setA v).engine = s.engine := rfl
@[simp] theorem State.setA_cancel (v : S32) : (s.setA v).cancel = s.cancel := rfl
@[simp] theorem State.setA_config (v : S32) : (s.setA v).config = s.config := rfl

/-! ### setX -/

@[simp] theorem State.setX_a (v : S32) : (s.setX v).a = s.a := rfl
@[simp] theorem State.setX_x (v : S32) : (s.setX v).x = v := rfl
@[simp] theorem State.setX_l (v : S32) : (s.setX v).l = s.l := rfl
@[simp] theorem State.setX_b (v : S32) : (s.setX v).b = s.b := rfl
@[simp] theorem State.setX_s (v : S32) : (s.setX v).s = s.s := rfl
@[simp] theorem State.setX_t (v : S32) : (s.setX v).t = s.t := rfl
@[simp] theorem State.setX_pc (v : S32) : (s.setX v).pc = s.pc := rfl
@[simp] theorem State.setX_sw (v : S32) : (s.setX v).sw = s.sw := rfl
@[simp] theorem State.setX_mem (v : S32) : (s.setX v).mem = s.mem := rfl
@[simp] theorem State.setX_engine (v : S32) : (s.setX v).engine = s.engine := rfl
@[simp] theorem State.setX_cancel (v : S32) : (s.setX v).cancel = s.cancel := rfl
@[simp] theorem State.setX_config (v : S32) : (s.setX v).config = s.config := rfl

/-! ### setL -/

@[simp] theorem State.setL_a (v : S32) : (s.setL v).a = s.a := rfl
@[simp] theorem State.setL_x (v : S32) : (s.setL v).x = s.x := rfl
@[simp] theorem State.setL_l (v : S32) : (s.setL v).l = v := rfl
@[simp] theorem State.setL_b (v : S32) : (s.setL v).b = s.b := rfl
@[simp] theorem State.setL_s (v : S32) : (s.setL v).s = s.s := rfl
@[simp] theorem State.setL_t (v : S32) : (s.setL v).t = s.t := rfl
@[simp] theorem State.setL_pc (v : S32) : (s.setL v).pc = s.pc := rfl
@[simp] theorem State.setL_sw (v : S32) : (s.setL v).sw = s.sw := rfl
@[simp] theorem State.setL_mem (v : S32) : (s.setL v).mem = s.mem := rfl
@[simp] theorem State.setL_engine (v : S32) : (s.setL v).engine = s.engine := rfl
@[simp] theorem State.setL_cancel (v : S32) : (s.setL v).cancel = s.cancel := rfl
@[simp] theorem State.setL_config (v : S32) : (s.setL v).config = s.config := rfl

/-! ### setB -/

@[simp] theorem State.setB_a (v : S32) : (s.setB v).a = s.a := rfl
@[simp] theorem State.setB_x (v : S32) : (s.setB v).x = s.x := rfl
@[simp] theorem State.setB_l (v : S32) : (s.setB v).l = s.l := rfl
@[simp] theorem State.setB_b (v : S32) : (s.setB v).b = v := rfl
@[simp] theorem State.setB_s (v : S32) : (s.setB v).s = s.s := rfl
@[simp] theorem State.setB_t (v : S32) : (s.setB v).t = s.t := rfl
@[simp] theorem State.setB_pc (v : S32) : (s.setB v).pc = s.pc := rfl
@[simp] theorem State.setB_sw (v : S32) : (s.setB v).sw = s.sw := rfl
@[simp] theorem State.setB_mem (v : S32) : (s.setB v).mem = s.mem := rfl
@[simp] theorem State.setB_engine (v : S32) : (s.setB v).engine = s.engine := rfl
@[simp] theorem State.setB_cancel (v : S32) : (s.setB v).cancel = s.cancel := rfl
@[simp] theorem State.setB_config (v : S32) : (s.setB v).config = s.config := rfl

/-! ### setS -/

@[simp] theorem State.setS_a (v : S32) : (s.setS v).a = s.a := rfl
@[simp] theorem State.setS_x (v : S32) : (s.setS v).x = s.x := rfl
@[simp] theorem State.setS_l (v : S32) : (s.setS v).l = s.l := rfl
@[simp] theorem State.setS_b (v : S32) : (s.setS v).b = s.b := rfl
@[simp] theorem State.setS_s (v : S32) : (s.setS v).s = v := rfl
@[simp] theorem State.setS_t (v : S32) : (s.setS v).t = s.t := rfl
@[simp] theorem State.setS_pc (v : S32) : (s.setS v).pc = s.pc := rfl
@[simp] theorem State.setS_sw (v : S32) : (s.setS v).sw = s.sw := rfl
@[simp] theorem State.setS_mem (v : S32) : (s.setS v).mem = s.mem := rfl
@[simp] theorem State.setS_engine (v : S32) : (s.setS v).engine = s.engine := rfl
@[simp] theorem State.setS_cancel (v : S32) : (s.setS v).cancel = s.cancel := rfl
@[simp] theorem State.setS_config (v : S32) : (s.setS v).config = s.config := rfl

/-! ### setT -/

@[simp] theorem State.setT_a (v : S32) : (s.setT v).a = s.a := rfl
@[simp] theorem State.setT_x (v : S32) : (s.setT v).x = s.x := rfl
@[simp] theorem State.setT_l (v : S32) : (s.setT v).l = s.l := rfl
@[simp] theorem State.setT_b (v : S32) : (s.setT v).b = s.b := rfl
@[simp] theorem State.setT_s (v : S32) : (s.setT v).s = s.s := rfl
@[simp] theorem State.setT_t (v : S32) : (s.setT v).t = v := rfl
@[simp] theorem State.setT_pc (v : S32) : (s.setT v).pc = s.pc := rfl
@[simp] theorem State.setT_sw (v : S32) : (s.setT v).sw = s.sw := rfl
@[simp] theorem State.setT_mem (v : S32) : (s.setT v).mem = s.mem := rfl
@[simp] theorem State.setT_engine (v : S32) : (s.setT v).engine = s.engine := rfl
@[simp] theorem State.setT_cancel (v : S32) : (s.setT v).cancel = s.cancel := rfl
@[simp] theorem State.setT_config (v : S32) : (s.setT v).config = s.config := rfl

/-! ### setPc -/

@[simp] theorem State.setPc_a (v : S32) : (s.setPc v).a = s.a := rfl
@[simp] theorem State.setPc_x (v : S32) : (s.setPc v).x = s.x := rfl
@[simp] theorem State.setPc_l (v : S32) : (s.setPc v).l = s.l := rfl
@[simp] theorem State.setPc_b (v : S32) : (s.setPc v).b = s.b := rfl
@[simp] theorem State.setPc_s (v : S32) : (s.setPc v).s = s.s := rfl
@[simp] theorem State.setPc_t (v : S32) : (s.setPc v).t = s.t := rfl
@[simp] theorem State.setPc_pc (v : S32) : (s.setPc v).pc = v := rfl
@[simp] theorem State.setPc_sw (v : S32) : (s.setPc v).sw = s.sw := rfl
@[simp] theorem State.setPc_mem (v : S32) : (s.setPc v).mem = s.mem := rfl
@[simp] theorem State.setPc_engine (v : S32) : (s.setPc v).engine = s.engine := rfl
@[simp] theorem State.setPc_cancel (v : S32) : (s.setPc v).cancel = s.cancel := rfl
@[simp] theorem State.setPc_config (v : S32) : (s.setPc v).config = s.config := rfl

/-! ### setSw -/

@[simp] theorem State.setSw_a (v : CondCode) : (s.setSw v).a = s.a := rfl
@[simp] theorem State.setSw_x (v : CondCode) : (s.setSw v).x = s.x := rfl
@[simp] theorem State.setSw_l (v : CondCode) : (s.setSw v).l = s.l := rfl
@[simp] theorem State.setSw_b (v : CondCode) : (s.setSw v).b = s.b := rfl
@[simp] theorem State.setSw_s (v : CondCode) : (s.setSw v).s = s.s := rfl
@[simp] theorem State.setSw_t (v : CondCode) : (s.setSw v).t = s.t := rfl
@[simp] theorem State.setSw_pc (v : CondCode) : (s.setSw v).pc = s.pc := rfl
@[simp] theorem State.setSw_sw (v : CondCode) : (s.setSw v).sw = v := rfl
@[simp] theorem State.setSw_mem (v : CondCode) : (s.setSw v).mem = s.mem := rfl
@[simp] theorem State.setSw_engine (v : CondCode) : (s.setSw v).engine = s.engine := rfl
@[simp] theorem State.setSw_cancel (v : CondCode) : (s.setSw v).cancel = s.cancel := rfl
@[simp] theorem State.setSw_config (v : CondCode) : (s.setSw v).config = s.config := rfl

/-! ### setMem -/

@[simp] theorem State.setMem_a (v : Memory) : (s.setMem v).a = s.a := rfl
@[simp] theorem State.setMem_x (v : Memory) : (s.setMem v).x = s.x := rfl
@[simp] theorem State.setMem_l (v : Memory) : (s.setMem v).l = s.l := rfl
@[simp] theorem State.setMem_b (v : Memory) : (s.setMem v).b = s.b := rfl
@[simp] theorem State.setMem_s (v : Memory) : (s.setMem v).s = s.s := rfl
@[simp] theorem State.setMem_t (v : Memory) : (s.setMem v).t = s.t := rfl
@[simp] theorem State.setMem_pc (v : Memory) : (s.setMem v).pc = s.pc := rfl
@[simp] theorem State.setMem_sw (v : Memory) : (s.setMem v).sw = s.sw := rfl
@[simp] theorem State.setMem_mem (v : Memory) : (s.setMem v).mem = v := rfl
@[simp] theorem State.setMem_engine (v : Memory) : (s.setMem v).engine = s.engine := rfl
@[simp] theorem State.setMem_cancel (v : Memory) : (s.setMem v).cancel = s.cancel := rfl
@[simp] theorem State.setMem_config (v : Memory) : (s.setMem v).config = s.config := rfl

/-! ### setEngine -/

@[simp] theorem State.setEngine_a (v : Engine) : (s.setEngine v).a = s.a := rfl
@[simp] theorem State.setEngine_x (v : Engine) : (s.setEngine v).x = s.x := rfl
@[simp] theorem State.setEngine_l (v : Engine) : (s.setEngine v).l = s.l := rfl
@[simp] theorem State.setEngine_b (v : Engine) : (s.setEngine v).b = s.b := rfl
@[simp] theorem State.setEngine_s (v : Engine) : (s.setEngine v).s = s.s := rfl
@[simp] theorem State.setEngine_t (v : Engine) : (s.setEngine v).t = s.t := rfl
@[simp] theorem State.setEngine_pc (v : Engine) : (s.setEngine v).pc = s.pc := rfl
@[simp] theorem State.setEngine_sw (v : Engine) : (s.setEngine v).sw = s.sw := rfl
@[simp] theorem State.setEngine_mem (v : Engine) : (s.setEngine v).mem = s.mem := rfl
@[simp] theorem State.setEngine_engine (v : Engine) : (s.setEngine v).engine = v := rfl
@[simp] theorem State.setEngine_cancel (v : Engine) : (s.setEngine v).cancel = s.cancel := rfl
@[simp] theorem State.setEngine_config (v : Engine) : (s.setEngine v).config = s.config := rfl

/-! ### setCancel -/

@[simp] theorem State.setCancel_a (v : Bool) : (s.setCancel v).a = s.a := rfl
@[simp] theorem State.setCancel_x (v : Bool) : (s.setCancel v).x = s.x := rfl
@[simp] theorem State.setCancel_l (v : Bool) : (s.setCancel v).l = s.l := rfl
@[simp] theorem State.setCancel_b (v : Bool) : (s.setCancel v).b = s.b := rfl
@[simp] theorem State.setCancel_s (v : Bool) : (s.setCancel v).s = s.s := rfl
@[simp] theorem State.setCancel_t (v : Bool) : (s.setCancel v).t = s.t := rfl
@[simp] theorem State.setCancel_pc (v : Bool) : (s.setCancel v).pc = s.pc := rfl
@[simp] theorem State.setCancel_sw (v : Bool) : (s.setCancel v).sw = s.sw := rfl
@[simp] theorem State.setCancel_mem (v : Bool) : (s.setCancel v).mem = s.mem := rfl
@[simp] theorem State.setCancel_engine (v : Bool) : (s.setCancel v).engine = s.engine := rfl
@[simp] theorem State.setCancel_cancel (v : Bool) : (s.setCancel v).cancel = v := rfl
@[simp] theorem State.setCancel_config (v : Bool) : (s.setCancel v).config = s.config := rfl

end Sys2Proof.Machine
end

