-- ==== Sys2Proof/Laws/Word.lean ====
section
/-! SUPPORT. The arithmetic of `wrap32` and the ALU primitives as bit-vector arithmetic. -/

namespace Sys2Proof

@[simp] theorem wrap32_toInt (v : S32) : wrap32 v.toInt = v := BitVec.ofInt_toInt

theorem wrap32_add (m n : Int) : wrap32 (m + n) = wrap32 m + wrap32 n := BitVec.ofInt_add m n

theorem wrap32_sub (m n : Int) : wrap32 (m - n) = wrap32 m - wrap32 n := by
  simp only [wrap32]
  apply BitVec.eq_of_toInt_eq
  simp [BitVec.toInt_sub, BitVec.toInt_ofInt]

theorem wrap32_mul (m n : Int) : wrap32 (m * n) = wrap32 m * wrap32 n := BitVec.ofInt_mul m n

@[simp] theorem wrap32_natCast (n : Nat) : wrap32 (n : Int) = BitVec.ofNat 32 n := by
  simp [wrap32, BitVec.ofInt_natCast]

namespace Machine

theorem nextPc_eq (s : State) (n : Nat) : nextPc s n = s.pc + BitVec.ofNat 32 n := by
  simp [nextPc, wrap32_add]

theorem aluAdd_eq (a b : S32) : aluAdd a b = a + b := by simp [aluAdd, wrap32_add]

theorem aluSub_eq (a b : S32) : aluSub a b = a - b := by simp [aluSub, wrap32_sub]

theorem aluMul_eq (a b : S32) : aluMul a b = a * b := by simp [aluMul, wrap32_mul]

theorem aluInc_eq (a : S32) : aluInc a = a + 1#32 := by
  have h : wrap32 1 = 1#32 := by decide
  simp [aluInc, wrap32_add, h]

end Machine

end Sys2Proof
end

