-- ==== Sys2Proof/Laws/Ops.lean ====
section
/-! SUPPORT. For each shared operation, what it can do: the fetch, the sequencer, the end of a step, the operand forms, the
four shapes of instructions, and the word store and conditional jump that several instructions share. -/

namespace Sys2Proof.Machine

variable {s t : State} {m : Addressing}

/-! ### The fetch -/

/-- A byte in memory is fetched, and the bytes after it follow (R57, R123, R124). -/
theorem fetchBytes_cons {size : Nat} {mem : Memory} {a : Int} (k : Nat) (h : 0 ≤ a ∧ a < size) :
    fetchBytes size mem (k + 1) a = mem.read a.toNat :: fetchBytes size mem k (a + 1) := by
  obtain ⟨-, he⟩ | ⟨hn, -⟩ := fetchByte_cases size mem a
  · simp only [fetchBytes, he]
  · exact absurd h hn

/-- No byte is fetched outside memory (R57, R121). -/
theorem fetchBytes_nil {size : Nat} {mem : Memory} {a : Int} (k : Nat) (h : ¬(0 ≤ a ∧ a < size)) :
    fetchBytes size mem k a = [] := by
  cases k with
  | zero => rfl
  | succ k =>
    obtain ⟨hr, -⟩ | ⟨-, he⟩ := fetchByte_cases size mem a
    · exact absurd hr h
    · simp only [fetchBytes, he]

/-! ### The sequencer -/

/-- The advance changes PC and nothing else (R127). -/
theorem advance_eq (s : State) (n : Nat) : advance s n = { s with pc := s.pc + BitVec.ofNat 32 n } := by
  simp [advance, State.setPc, nextPc_eq]

@[simp] theorem advance_a (n : Nat) : (advance s n).a = s.a := rfl
@[simp] theorem advance_x (n : Nat) : (advance s n).x = s.x := rfl
@[simp] theorem advance_l (n : Nat) : (advance s n).l = s.l := rfl
@[simp] theorem advance_b (n : Nat) : (advance s n).b = s.b := rfl
@[simp] theorem advance_s (n : Nat) : (advance s n).s = s.s := rfl
@[simp] theorem advance_t (n : Nat) : (advance s n).t = s.t := rfl
@[simp] theorem advance_sw (n : Nat) : (advance s n).sw = s.sw := rfl
@[simp] theorem advance_mem (n : Nat) : (advance s n).mem = s.mem := rfl
@[simp] theorem advance_cancel (n : Nat) : (advance s n).cancel = s.cancel := rfl
@[simp] theorem advance_config (n : Nat) : (advance s n).config = s.config := rfl
@[simp] theorem advance_memBytes (n : Nat) : (advance s n).memBytes = s.memBytes := rfl
theorem advance_pc (n : Nat) : (advance s n).pc = s.pc + BitVec.ofNat 32 n := by rw [advance_eq]

/-! ### The end of a step -/

@[simp] theorem commit_completes (u : State) : commit s (.completes u) = .next (u.setEngine .running) := rfl
@[simp] theorem commit_stopsReturned (u : State) :
    commit s (.stopsReturned u) = .next (u.setEngine (.halted .returned)) := rfl
@[simp] theorem commit_raises (r : HaltReason) : commit s (.raises r) = .next (s.setEngine (.halted r)) := rfl

/-- A step always ends in a next state, one of three (R281). -/
theorem commit_cases (c : CycleEnd) (h : commit s c = .next t) :
    (∃ u, c = .completes u ∧ t = u.setEngine .running) ∨
      (∃ u, c = .stopsReturned u ∧ t = u.setEngine (.halted .returned)) ∨
      ∃ r, c = .raises r ∧ t = s.setEngine (.halted r) := by
  cases c with
  | completes u => exact .inl ⟨u, rfl, by cases h; rfl⟩
  | stopsReturned u => exact .inr (.inl ⟨u, rfl, by cases h; rfl⟩)
  | raises r => exact .inr (.inr ⟨r, rfl, by cases h; rfl⟩)

@[simp] theorem bind_ok {α : Type} (v : α) (k : α → CycleEnd) : CycleEnd.bind (.ok v) k = k v := rfl
@[simp] theorem bind_error {α : Type} (r : HaltReason) (k : α → CycleEnd) : CycleEnd.bind (.error r) k = .raises r := rfl

/-! ### The operand forms -/

/-- `lookup` gives a register or raises InvalidRegister (R27). -/
theorem lookup_cases (k : BitVec 4) : (∃ r, lookup k = .ok r) ∨ lookup k = .error .invalidRegister := by
  unfold lookup
  split <;> simp

theorem memOperand_cases (size : Nat) (mem : Memory) (a : Int) :
    ((0 ≤ a ∧ a + 2 < size) ∧ memOperand size mem a = .ok (zext24 (mem.word a.toNat))) ∨
      (¬(0 ≤ a ∧ a + 2 < size) ∧ memOperand size mem a = .error .outOfBounds) := by
  obtain ⟨hr, h⟩ | ⟨hr, h⟩ := memReadWord_cases size mem a
  · exact .inl ⟨hr, by rw [memOperand, h]; rfl⟩
  · exact .inr ⟨hr, by rw [memOperand, h]; rfl⟩

@[simp] theorem pointedOperand_ok (size : Nat) (mem : Memory) (ptr : Word24) :
    pointedOperand size mem (.ok ptr) = memOperand size mem ptr.toNat := rfl
@[simp] theorem pointedOperand_error (size : Nat) (mem : Memory) (r : HaltReason) :
    pointedOperand size mem (.error r) = .error r := rfl

/-- An operand is a value or the raise of a word read out of range (R137). -/
theorem operand_cases (s : State) (m : Addressing) : (∃ v, operand s m = .ok v) ∨ operand s m = .error .outOfBounds := by
  unfold operand
  cases modeOf m with
  | immediate => exact .inl ⟨_, rfl⟩
  | simple =>
    obtain ⟨-, h⟩ | ⟨-, h⟩ := memOperand_cases s.memBytes s.mem (target s m).toInt
    · exact .inl ⟨_, h⟩
    · exact .inr h
  | indirect =>
    obtain ⟨-, h⟩ | ⟨-, h⟩ := memReadWord_cases s.memBytes s.mem (target s m).toInt
    · rw [h, pointedOperand_ok]
      obtain ⟨-, h'⟩ | ⟨-, h'⟩ := memOperand_cases s.memBytes s.mem (s.mem.word (target s m).toInt.toNat).toNat
      · exact .inl ⟨_, h'⟩
      · exact .inr h'
    · exact .inr (by rw [h, pointedOperand_error])

/-- A register write keeps memory, the engine state, the cancellation request and the parameters. -/
@[simp] theorem regWrite_mem (r : Reg) (v : S32) : (regWrite s r v).mem = s.mem := by cases r <;> rfl
@[simp] theorem regWrite_engine (r : Reg) (v : S32) : (regWrite s r v).engine = s.engine := by cases r <;> rfl
@[simp] theorem regWrite_cancel (r : Reg) (v : S32) : (regWrite s r v).cancel = s.cancel := by cases r <;> rfl
@[simp] theorem regWrite_config (r : Reg) (v : S32) : (regWrite s r v).config = s.config := by cases r <;> rfl

/-! ### The four shapes -/

/-- An operand-using instruction runs its effect on the operand, or halts with OutOfBounds (R209). -/
theorem withOperand_cases (m : Addressing) (s : State) (f : State → S32 → CycleEnd) :
    (∃ v, operand (advance s m.length) m = .ok v ∧ withOperand m s f = commit s (f (advance s m.length) v)) ∨
      (operand (advance s m.length) m = .error .outOfBounds ∧
        withOperand m s f = .next (s.setEngine (.halted .outOfBounds))) := by
  obtain ⟨v, h⟩ | h := operand_cases (advance s m.length) m
  · exact .inl ⟨v, h, by simp [withOperand, h]⟩
  · exact .inr ⟨h, by simp [withOperand, h]⟩

theorem withTarget_eq (m : Addressing) (s : State) (f : State → S32 → CycleEnd) :
    withTarget m s f = commit s (f (advance s m.length) (target (advance s m.length) m)) := rfl

/-- A format-2 instruction with one register number runs its effect or halts with InvalidRegister (R195). -/
theorem withReg_cases (r1 : BitVec 4) (s : State) (f : State → Reg → CycleEnd) :
    (∃ p, lookup r1 = .ok p ∧ withReg r1 s f = commit s (f (advance s 2) p)) ∨
      (lookup r1 = .error .invalidRegister ∧ withReg r1 s f = .next (s.setEngine (.halted .invalidRegister))) := by
  obtain ⟨p, h⟩ | h := lookup_cases r1
  · exact .inl ⟨p, h, by simp [withReg, h]⟩
  · exact .inr ⟨h, by simp [withReg, h]⟩

/-- A format-2 instruction with two register numbers runs its effect or halts with InvalidRegister (R195). -/
theorem withRegs_cases (r1 r2 : BitVec 4) (s : State) (f : State → Reg → Reg → CycleEnd) :
    (∃ p q, lookup r1 = .ok p ∧ lookup r2 = .ok q ∧ withRegs r1 r2 s f = commit s (f (advance s 2) p q)) ∨
      ((lookup r1 = .error .invalidRegister ∨ lookup r2 = .error .invalidRegister) ∧
        withRegs r1 r2 s f = .next (s.setEngine (.halted .invalidRegister))) := by
  obtain ⟨p, h⟩ | h := lookup_cases r1
  · obtain ⟨q, h'⟩ | h' := lookup_cases r2
    · exact .inl ⟨p, q, h, h', by simp [withRegs, h, h']⟩
    · exact .inr ⟨.inr h', by simp [withRegs, h, h']⟩
  · exact .inr ⟨.inl h, by simp [withRegs, h]⟩

/-! ### Shared by several instructions -/

/-- A word store completes with the word written, or halts with OutOfBounds (R219). -/
theorem storeWord_cases (m : Addressing) (s : State) (v : State → S32) :
    let s1 := advance s m.length
    let a := (target s1 m).toInt
    ((0 ≤ a ∧ a + 2 < s.memBytes) ∧ storeWord m s v =
        .next ((s1.setMem (s.mem.writeWord a.toNat (low24 (v s1)))).setEngine .running)) ∨
      (¬(0 ≤ a ∧ a + 2 < s.memBytes) ∧ storeWord m s v = .next (s.setEngine (.halted .outOfBounds))) := by
  intro s1 a
  have hs : storeWord m s v =
      commit s (CycleEnd.bind (memWriteWord s1.memBytes s1.mem a (v s1)) fun mem => .completes (s1.setMem mem)) := rfl
  obtain ⟨hr, h⟩ | ⟨hr, h⟩ := memWriteWord_cases s1.memBytes s1.mem a (v s1)
  · exact .inl ⟨hr, by rw [hs, h, bind_ok, commit_completes]; rfl⟩
  · exact .inr ⟨hr, by rw [hs, h, bind_error, commit_raises]⟩

/-- A conditional jump always completes, and changes PC alone (R261 to R263). -/
theorem jumpIf_eq (c : CondCode) (m : Addressing) (s : State) :
    jumpIf c m s = .next (((advance s m.length).setPc
      (if s.sw = c then target (advance s m.length) m else (advance s m.length).pc)).setEngine .running) := by
  rw [jumpIf, withTarget_eq, commit_completes, advance_sw]
  by_cases h : s.sw = c
  · rw [if_pos h, if_pos h]
  · rw [if_neg h, if_neg h]
    rfl

end Sys2Proof.Machine
end

