-- ==== Sys2Proof/Laws/PerInstr.lean ====
section
/-! SUPPORT. The family `EncodedLength`, one lemma for each instruction: the encoder emits as many bytes as the
instruction is long (R80 in 30_encoding.md), at least 1 and at most 4, whatever the opcode table. -/

namespace Sys2Proof.Laws

/-- What the family says of an instruction. -/
def EncodedLength.Statement (i : Instr) : Prop :=
  (∀ t, (encode t i).length = i.length) ∧ 1 ≤ i.length ∧ i.length ≤ maxLength

theorem EncodedLength.addressing {i : Instr} {m : Addressing} (h : i.operands = .addressing m) :
    EncodedLength.Statement i := by
  cases hf : m.field <;>
    simp [EncodedLength.Statement, encode, Instr.length, h, encodeField, Addressing.length, hf, maxLength]

theorem EncodedLength.nibbles {i : Instr} {p q : BitVec 4} (h : i.operands = .nibbles p q) :
    EncodedLength.Statement i := by
  simp [EncodedLength.Statement, encode, Instr.length, h, maxLength]

theorem EncodedLength.rsub : EncodedLength.Statement .rsub := by
  simp [EncodedLength.Statement, encode, Instr.length, Instr.operands, maxLength]
theorem EncodedLength.addr (r1 r2 : BitVec 4) : EncodedLength.Statement (.addr r1 r2) := EncodedLength.nibbles rfl
theorem EncodedLength.subr (r1 r2 : BitVec 4) : EncodedLength.Statement (.subr r1 r2) := EncodedLength.nibbles rfl
theorem EncodedLength.mulr (r1 r2 : BitVec 4) : EncodedLength.Statement (.mulr r1 r2) := EncodedLength.nibbles rfl
theorem EncodedLength.divr (r1 r2 : BitVec 4) : EncodedLength.Statement (.divr r1 r2) := EncodedLength.nibbles rfl
theorem EncodedLength.rmo (r1 r2 : BitVec 4) : EncodedLength.Statement (.rmo r1 r2) := EncodedLength.nibbles rfl
theorem EncodedLength.compr (r1 r2 : BitVec 4) : EncodedLength.Statement (.compr r1 r2) := EncodedLength.nibbles rfl
theorem EncodedLength.shiftl (r1 c : BitVec 4) : EncodedLength.Statement (.shiftl r1 c) := EncodedLength.nibbles rfl
theorem EncodedLength.shiftr (r1 c : BitVec 4) : EncodedLength.Statement (.shiftr r1 c) := EncodedLength.nibbles rfl
theorem EncodedLength.clear (r1 : BitVec 4) : EncodedLength.Statement (.clear r1) := EncodedLength.nibbles rfl
theorem EncodedLength.tixr (r1 : BitVec 4) : EncodedLength.Statement (.tixr r1) := EncodedLength.nibbles rfl
theorem EncodedLength.lda (m : Addressing) : EncodedLength.Statement (.lda m) := EncodedLength.addressing rfl
theorem EncodedLength.ldx (m : Addressing) : EncodedLength.Statement (.ldx m) := EncodedLength.addressing rfl
theorem EncodedLength.ldl (m : Addressing) : EncodedLength.Statement (.ldl m) := EncodedLength.addressing rfl
theorem EncodedLength.ldb (m : Addressing) : EncodedLength.Statement (.ldb m) := EncodedLength.addressing rfl
theorem EncodedLength.lds (m : Addressing) : EncodedLength.Statement (.lds m) := EncodedLength.addressing rfl
theorem EncodedLength.ldt (m : Addressing) : EncodedLength.Statement (.ldt m) := EncodedLength.addressing rfl
theorem EncodedLength.sta (m : Addressing) : EncodedLength.Statement (.sta m) := EncodedLength.addressing rfl
theorem EncodedLength.stx (m : Addressing) : EncodedLength.Statement (.stx m) := EncodedLength.addressing rfl
theorem EncodedLength.stl (m : Addressing) : EncodedLength.Statement (.stl m) := EncodedLength.addressing rfl
theorem EncodedLength.stb (m : Addressing) : EncodedLength.Statement (.stb m) := EncodedLength.addressing rfl
theorem EncodedLength.sts (m : Addressing) : EncodedLength.Statement (.sts m) := EncodedLength.addressing rfl
theorem EncodedLength.stt (m : Addressing) : EncodedLength.Statement (.stt m) := EncodedLength.addressing rfl
theorem EncodedLength.ldch (m : Addressing) : EncodedLength.Statement (.ldch m) := EncodedLength.addressing rfl
theorem EncodedLength.stch (m : Addressing) : EncodedLength.Statement (.stch m) := EncodedLength.addressing rfl
theorem EncodedLength.add (m : Addressing) : EncodedLength.Statement (.add m) := EncodedLength.addressing rfl
theorem EncodedLength.sub (m : Addressing) : EncodedLength.Statement (.sub m) := EncodedLength.addressing rfl
theorem EncodedLength.mul (m : Addressing) : EncodedLength.Statement (.mul m) := EncodedLength.addressing rfl
theorem EncodedLength.div (m : Addressing) : EncodedLength.Statement (.div m) := EncodedLength.addressing rfl
theorem EncodedLength.and (m : Addressing) : EncodedLength.Statement (.and m) := EncodedLength.addressing rfl
theorem EncodedLength.or (m : Addressing) : EncodedLength.Statement (.or m) := EncodedLength.addressing rfl
theorem EncodedLength.comp (m : Addressing) : EncodedLength.Statement (.comp m) := EncodedLength.addressing rfl
theorem EncodedLength.tix (m : Addressing) : EncodedLength.Statement (.tix m) := EncodedLength.addressing rfl
theorem EncodedLength.j (m : Addressing) : EncodedLength.Statement (.j m) := EncodedLength.addressing rfl
theorem EncodedLength.jeq (m : Addressing) : EncodedLength.Statement (.jeq m) := EncodedLength.addressing rfl
theorem EncodedLength.jgt (m : Addressing) : EncodedLength.Statement (.jgt m) := EncodedLength.addressing rfl
theorem EncodedLength.jlt (m : Addressing) : EncodedLength.Statement (.jlt m) := EncodedLength.addressing rfl
theorem EncodedLength.jsub (m : Addressing) : EncodedLength.Statement (.jsub m) := EncodedLength.addressing rfl

end Sys2Proof.Laws
end

