-- ==== Sys2Proof/Laws/Step.lean ====
section
/-! SUPPORT. What one step can do. -/

namespace Sys2Proof.Machine

variable {s t : State}

/-- Every step is one of three: it stays Halted, it executes the decoded instruction, or its fetch or decode halts. -/
theorem step_cases (s : State) :
    (∃ r, s.engine = .halted r ∧ step s = .next s) ∨
      ((∀ r, s.engine ≠ .halted r) ∧ ∃ i rest, decode s.config.opcodes (fetchWindow s) = .ok (i, rest) ∧ step s = exec i s) ∨
      ((∀ r, s.engine ≠ .halted r) ∧ ∃ e, decode s.config.opcodes (fetchWindow s) = .error e ∧
        step s = .next (s.setEngine (.halted (decodeHalt e)))) := by
  have hc : (∃ i rest, decode s.config.opcodes (fetchWindow s) = .ok (i, rest) ∧ cycle s = exec i s) ∨
      ∃ e, decode s.config.opcodes (fetchWindow s) = .error e ∧ cycle s = .next (s.setEngine (.halted (decodeHalt e))) := by
    unfold cycle
    cases decode s.config.opcodes (fetchWindow s) with
    | ok p => exact .inl ⟨p.1, p.2, rfl, rfl⟩
    | error e => exact .inr ⟨e, rfl, rfl⟩
  cases h : s.engine with
  | halted r => exact .inl ⟨r, rfl, by simp [step, stepEngine, h]⟩
  | idle =>
    refine .inr ?_
    have hs : step s = cycle s := by simp [step, stepEngine, h]
    rw [hs]
    exact hc.imp (⟨by simp, ·⟩) (⟨by simp, ·⟩)
  | running =>
    refine .inr ?_
    have hs : step s = cycle s := by simp [step, stepEngine, h]
    rw [hs]
    exact hc.imp (⟨by simp, ·⟩) (⟨by simp, ·⟩)

end Sys2Proof.Machine
end

