-- ==== Sys2Proof/Tests/Slice0.lean ====
section
/-! SUPPORT. Tests of the model. Every expected result is a vector of spec/95_test_vectors.md, named in the test's
docstring, or is computed by hand from the rule named there; the words of the decode tests are written from the encodings
of R81 to R84 (30_encoding.md), bits grouped by field. The witnesses show that the hypotheses of the statements in
Certificates/Slice0/Obligations.lean can be met, clause by clause. -/

namespace Sys2Proof.Tests

open Sys2Proof.Machine

/-! ### Helpers -/

/-- `s` with bytes from address `a` on. -/
def put (a : Int) (bs : List Byte) (s : State) : State := { s with mem := writeBytes s.memBytes s.mem a bs }

/-- `s` with PC at the given address and these bytes there. -/
def ready (pc : S32) (bs : List Byte) (s : State) : State := { put pc.toInt bs s with pc := pc }

/-- The decoder and the encoder with the default table. -/
def decodeBytes (bs : List Byte) : Except DecodeError (Instr × List Byte) := decode Config.default.opcodes bs
def encodeBytes (i : Instr) : List Byte := encode Config.default.opcodes i

/-- The memory size of the default machine (R7). -/
def size : Nat := 393216

theorem test_size : State.reset.memBytes = size := by decide

/-- A machine with 2 words of memory and the classes of LDA and LDX exchanged: other parameters than the default's. -/
def small : State :=
  State.initial { memWords := 2, opcodes := Config.default.opcodes.map fun r =>
    ⟨if r.mnemonic = .lda then .ldx else if r.mnemonic = .ldx then .lda else r.mnemonic, r.opcodeClass⟩ }

/-- What one step leaves: a part of the state, PC and the engine state. -/
def after {α : Type} (s : State) (f : State → α) : Option (α × S32 × Engine) :=
  match step s with
  | .next t => some (f t, t.pc, t.engine)
  | .fault _ | .refused _ => none

/-- The next state, if the answer is one. -/
def nextState : Result → Option State
  | .next t => some t
  | .fault _ | .refused _ => none

theorem eq_next_iff {r : Result} {t : State} : r = .next t ↔ nextState r = some t := by
  cases r <;> simp [nextState]

/-- The `n` bytes from address `a` on. -/
def bytesFrom (a : Nat) : Nat → State → List Byte
  | 0, _ => []
  | n + 1, s => s.mem.read a :: bytesFrom (a + 1) n s

/-- Format-3/4 addressing with no flag set but x. -/
def plain (x : Bool) (f : AddrField) : Addressing := ⟨false, false, x, false, false, f⟩

/-! ### Well-formedness: one ill-formed term for each check -/

theorem test_wellFormed_disp_range :
    WellFormed (.lda (plain false (.disp 2047))) ∧ WellFormed (.lda (plain false (.disp (-2048)))) ∧
      ¬WellFormed (.lda (plain false (.disp 2048))) ∧ ¬WellFormed (.lda (plain false (.disp (-2049)))) := by decide

theorem test_wellFormed_addr_range :
    WellFormed (.jsub (plain true (.addr 1048575))) ∧ ¬WellFormed (.jsub (plain true (.addr 1048576))) := by decide

/-! ### Decode: one word for every constructor -/

/-- RSUB, the reserved bits set (V-D7). -/
theorem test_decode_rsub : decodeBytes [0b010011_11#8] = .ok (.rsub, []) := by decide

/-- ADDR S,A, the ignored bits set (V-D9). -/
theorem test_decode_addr : decodeBytes [0b100100_11#8, 0b0100_0000#8] = .ok (.addr 4#4 0#4, []) := by decide

/-- SUBR S,A (V-R3). -/
theorem test_decode_subr : decodeBytes [0b100101_00#8, 0b0100_0000#8] = .ok (.subr 4#4 0#4, []) := by decide

/-- MULR S,A (V-R5). -/
theorem test_decode_mulr : decodeBytes [0b100110_00#8, 0b0100_0000#8] = .ok (.mulr 4#4 0#4, []) := by decide

/-- DIVR T,S (W4). -/
theorem test_decode_divr : decodeBytes [0b100111_00#8, 0b0101_0100#8] = .ok (.divr 5#4 4#4, []) := by decide

/-- RMO A,PC (V-R11). -/
theorem test_decode_rmo : decodeBytes [0b101011_00#8, 0b0000_1000#8] = .ok (.rmo 0#4 8#4, []) := by decide

/-- COMPR X,T (V-R15). -/
theorem test_decode_compr : decodeBytes [0b101000_00#8, 0b0001_0101#8] = .ok (.compr 1#4 5#4, []) := by decide

/-- CLEAR X, the unused r2 = 7 (V-R19). -/
theorem test_decode_clear : decodeBytes [0b101101_00#8, 0b0001_0111#8] = .ok (.clear 1#4, []) := by decide

/-- SHIFTL A,15 (V-R23). -/
theorem test_decode_shiftl : decodeBytes [0b101001_00#8, 0b0000_1111#8] = .ok (.shiftl 0#4 15#4, []) := by decide

/-- SHIFTR T,7 (V-R25). -/
theorem test_decode_shiftr : decodeBytes [0b101010_00#8, 0b0101_0111#8] = .ok (.shiftr 5#4 7#4, []) := by decide

/-- TIXR T (V-R28). -/
theorem test_decode_tixr : decodeBytes [0b101110_00#8, 0b0101_0000#8] = .ok (.tixr 5#4, []) := by decide

/-- LDA, n = i = 1, p = 1, disp -1 (V-D2). -/
theorem test_decode_lda :
    decodeBytes [0b000000_11#8, 0b0_0_1_0_1111#8, 0b11111111#8] =
      .ok (.lda ⟨true, true, false, false, true, .disp (-1)⟩, []) := by decide

/-- +LDA #0x80000, unsigned (V-D4). -/
theorem test_decode_lda_format4 :
    decodeBytes [0b000000_01#8, 0b0_0_0_1_1000#8, 0b00000000#8, 0b00000000#8] =
      .ok (.lda ⟨false, true, false, false, false, .addr 524288⟩, []) := by decide

/-- LDX #0x10,X (V-A14). -/
theorem test_decode_ldx :
    decodeBytes [0b000001_01#8, 0b1_0_0_0_0000#8, 0b00010000#8] =
      .ok (.ldx ⟨false, true, true, false, false, .disp 16⟩, []) := by decide

/-- LDL RETADR (P3). -/
theorem test_decode_ldl :
    decodeBytes [0b000010_00#8, 0b0_0_1_0_0000#8, 0b00000111#8] =
      .ok (.ldl ⟨false, false, false, false, true, .disp 7⟩, []) := by decide

/-- +LDB #64 (V-L5). -/
theorem test_decode_ldb :
    decodeBytes [0b011010_01#8, 0b0_0_0_1_0000#8, 0b00000000#8, 0b01000000#8] =
      .ok (.ldb ⟨false, true, false, false, false, .addr 64⟩, []) := by decide

/-- LDS #3 (V-L6). -/
theorem test_decode_lds :
    decodeBytes [0b011011_01#8, 0b0_0_0_0_0000#8, 0b00000011#8] =
      .ok (.lds ⟨false, true, false, false, false, .disp 3⟩, []) := by decide

/-- LDT @, p = 1, disp 0x38 (V-L7). -/
theorem test_decode_ldt :
    decodeBytes [0b011101_10#8, 0b0_0_1_0_0000#8, 0b00111000#8] =
      .ok (.ldt ⟨true, false, false, false, true, .disp 56⟩, []) := by decide

/-- +STA 393213 (V-L15). -/
theorem test_decode_sta :
    decodeBytes [0b000011_00#8, 0b0_0_0_1_0101#8, 0b11111111#8, 0b11111101#8] =
      .ok (.sta ⟨false, false, false, false, false, .addr 393213⟩, []) := by decide

/-- STX 0x30 (V-L11). -/
theorem test_decode_stx :
    decodeBytes [0b000100_00#8, 0b0_0_0_0_0000#8, 0b00110000#8] =
      .ok (.stx ⟨false, false, false, false, false, .disp 48⟩, []) := by decide

/-- STL RETADR (P3). -/
theorem test_decode_stl :
    decodeBytes [0b000101_00#8, 0b0_0_1_0_0000#8, 0b00010011#8] =
      .ok (.stl ⟨false, false, false, false, true, .disp 19⟩, []) := by decide

/-- STB 0,B (V-L12). -/
theorem test_decode_stb :
    decodeBytes [0b011110_00#8, 0b0_1_0_0_0000#8, 0b00000000#8] =
      .ok (.stb ⟨false, false, false, true, false, .disp 0⟩, []) := by decide

/-- +STS 0x100 (V-L13). -/
theorem test_decode_sts :
    decodeBytes [0b011111_00#8, 0b0_0_0_1_0000#8, 0b00000001#8, 0b00000000#8] =
      .ok (.sts ⟨false, false, false, false, false, .addr 256⟩, []) := by decide

/-- STT 0x60 (V-L14). -/
theorem test_decode_stt :
    decodeBytes [0b100001_00#8, 0b0_0_0_0_0000#8, 0b01100000#8] =
      .ok (.stt ⟨false, false, false, false, false, .disp 96⟩, []) := by decide

/-- LDCH -1 (V-L18). -/
theorem test_decode_ldch :
    decodeBytes [0b010100_00#8, 0b0_0_0_0_1111#8, 0b11111111#8] =
      .ok (.ldch ⟨false, false, false, false, false, .disp (-1)⟩, []) := by decide

/-- STCH 6,B (V-L20). -/
theorem test_decode_stch :
    decodeBytes [0b010101_00#8, 0b0_1_0_0_0000#8, 0b00000110#8] =
      .ok (.stch ⟨false, false, false, true, false, .disp 6⟩, []) := by decide

/-- ADD TABLE,X (P2). -/
theorem test_decode_add :
    decodeBytes [0b000110_00#8, 0b1_0_1_0_0000#8, 0b00001011#8] =
      .ok (.add ⟨false, false, true, false, true, .disp 11⟩, []) := by decide

/-- SUB #0x800, the least displacement (V-M6). -/
theorem test_decode_sub :
    decodeBytes [0b000111_01#8, 0b0_0_0_0_1000#8, 0b00000000#8] =
      .ok (.sub ⟨false, true, false, false, false, .disp (-2048)⟩, []) := by decide

/-- +MUL #0x10000 (V-M8). -/
theorem test_decode_mul :
    decodeBytes [0b001000_01#8, 0b0_0_0_1_0001#8, 0b00000000#8, 0b00000000#8] =
      .ok (.mul ⟨false, true, false, false, false, .addr 65536⟩, []) := by decide

/-- DIV #7 (V-M9). -/
theorem test_decode_div :
    decodeBytes [0b001001_01#8, 0b0_0_0_0_0000#8, 0b00000111#8] =
      .ok (.div ⟨false, true, false, false, false, .disp 7⟩, []) := by decide

/-- AND #0xFF (V-M13). -/
theorem test_decode_and :
    decodeBytes [0b010000_01#8, 0b0_0_0_0_0000#8, 0b11111111#8] =
      .ok (.and ⟨false, true, false, false, false, .disp 255⟩, []) := by decide

/-- OR #0x34 (V-M15). -/
theorem test_decode_or :
    decodeBytes [0b010001_01#8, 0b0_0_0_0_0000#8, 0b00110100#8] =
      .ok (.or ⟨false, true, false, false, false, .disp 52⟩, []) := by decide

/-- COMP #8 (V-M17). -/
theorem test_decode_comp :
    decodeBytes [0b001010_01#8, 0b0_0_0_0_0000#8, 0b00001000#8] =
      .ok (.comp ⟨false, true, false, false, false, .disp 8⟩, []) := by decide

/-- TIX 0x30,X (V-M24). -/
theorem test_decode_tix :
    decodeBytes [0b001011_00#8, 0b1_0_0_0_0000#8, 0b00110000#8] =
      .ok (.tix ⟨false, false, true, false, false, .disp 48⟩, []) := by decide

/-- J @0x30 (V-A13). -/
theorem test_decode_j :
    decodeBytes [0b001111_10#8, 0b0_0_0_0_0000#8, 0b00110000#8] =
      .ok (.j ⟨true, false, false, false, false, .disp 48⟩, []) := by decide

/-- JEQ (V-J3). -/
theorem test_decode_jeq :
    decodeBytes [0b001100_00#8, 0b0_0_1_0_0000#8, 0b00000110#8] =
      .ok (.jeq ⟨false, false, false, false, true, .disp 6⟩, []) := by decide

/-- JGT (V-J5). -/
theorem test_decode_jgt :
    decodeBytes [0b001101_00#8, 0b0_0_1_0_0000#8, 0b00000110#8] =
      .ok (.jgt ⟨false, false, false, false, true, .disp 6⟩, []) := by decide

/-- JLT LOOP, disp -10 (P2). -/
theorem test_decode_jlt :
    decodeBytes [0b001110_00#8, 0b0_0_1_0_1111#8, 0b11110110#8] =
      .ok (.jlt ⟨false, false, false, false, true, .disp (-10)⟩, []) := by decide

/-- +JSUB 0x100 (V-J9). -/
theorem test_decode_jsub :
    decodeBytes [0b010010_00#8, 0b0_0_0_1_0000#8, 0b00000001#8, 0b00000000#8] =
      .ok (.jsub ⟨false, false, false, false, false, .addr 256⟩, []) := by decide

/-- A class without a row (V-D10, V-D11, V-D12). -/
theorem test_decode_no_row :
    decodeBytes [0xFF#8] = .error .unimplementedOpcode ∧ decodeBytes [0x58#8, 0#8, 0#8] = .error .unimplementedOpcode ∧
      decodeBytes [0xC4#8] = .error .unimplementedOpcode := by decide

/-- Bytes that end too early (V-F2, V-F3, V-F5, V-F7). -/
theorem test_decode_truncated :
    decodeBytes [0x00#8] = .error .truncated ∧ decodeBytes [0x00#8, 0x00#8] = .error .truncated ∧
      decodeBytes [0x01#8, 0x10#8, 0x00#8] = .error .truncated ∧ decodeBytes [0x90#8] = .error .truncated := by decide

/-- The encoder's bytes for three instructions of P2 and P5. -/
theorem test_encode :
    encodeBytes (.add ⟨false, false, true, false, true, .disp 11⟩) = [0x18#8, 0xA0#8, 0x0B#8] ∧
      encodeBytes (.ldb ⟨false, true, false, false, false, .addr 64⟩) = [0x69#8, 0x10#8, 0x00#8, 0x40#8] ∧
      encodeBytes (.compr 1#4 5#4) = [0xA0#8, 0x15#8] := by decide

/-- The opcode bytes that R86 writes, in the order of its table. -/
theorem test_opcode_bytes :
    [Mnemonic.rsub, .clear, .addr, .subr, .mulr, .divr, .rmo, .compr, .shiftl, .shiftr, .tixr].map
        (opcodeOf Config.default.opcodes) =
      [0x4C#8, 0xB4#8, 0x90#8, 0x94#8, 0x98#8, 0x9C#8, 0xAC#8, 0xA0#8, 0xA4#8, 0xA8#8, 0xB8#8] ∧
    [Mnemonic.lda, .ldx, .ldl, .ldb, .lds, .ldt, .sta, .stx, .stl, .stb, .sts, .stt, .ldch, .stch].map
        (opcodeOf Config.default.opcodes) =
      [0x00#8, 0x04#8, 0x08#8, 0x68#8, 0x6C#8, 0x74#8, 0x0C#8, 0x10#8, 0x14#8, 0x78#8, 0x7C#8, 0x84#8, 0x50#8, 0x54#8] ∧
    [Mnemonic.add, .sub, .mul, .div, .and, .or, .comp, .j, .jeq, .jgt, .jlt, .jsub, .tix].map
        (opcodeOf Config.default.opcodes) =
      [0x18#8, 0x1C#8, 0x20#8, 0x24#8, 0x40#8, 0x44#8, 0x28#8, 0x3C#8, 0x30#8, 0x34#8, 0x38#8, 0x48#8, 0x2C#8] := by decide

/-- A table without a row for each mnemonic, with a row twice, or with a class twice is none (R86). -/
theorem test_opcodeTable_wf :
    small.config.opcodes.wf = true ∧ OpcodeTable.wf opcodesLong = false ∧
      OpcodeTable.wf (Config.default.opcodes ++ [⟨.lda, 0x3F#6⟩]) = false ∧
      OpcodeTable.wf (⟨.lda, 0x01#6⟩ :: Config.default.opcodes.filter (·.mnemonic ≠ .lda)) = false := by decide

/-- R7: another capacity and another table. The byte 04 is LDA, and the word at 4 is past the end of memory, at 3 not. -/
theorem test_parameters :
    after (put 0 [0x05#8, 0x00#8, 0x07#8] small) (fun t => (t.a, t.x)) = some ((7#32, 0#32), 3#32, .running) ∧
      after (put 0 [0x04#8, 0x00#8, 0x03#8, 0x00#8, 0x00#8, 0x09#8] small) (·.a) = some (9#32, 3#32, .running) ∧
      after (put 0 [0x04#8, 0x00#8, 0x04#8] small) (·.a) = some (0#32, 0#32, .halted .outOfBounds) ∧
      after { small with pc := 6#32 } (·.a) = some (0#32, 6#32, .halted .outOfBounds) ∧
      (hostReset small).config = small.config := by decide

/-- Table words, byte0 in the highest byte of the word (log entry 7). -/
theorem test_tableWord :
    decodeTableWord 8 0x4C = some .rsub ∧ decodeTableWord 16 0x9440 = some (.subr 4#4 0#4) ∧
      decodeTableWord 8 0x7C = some (.sts (plain false (.disp 0))) ∧
      decodeTableWord 24 0x382FF6 = some (.jlt ⟨false, false, false, false, true, .disp (-10)⟩) ∧
      decodeTableWord 32 0x481000FF = some (.jsub (plain false (.addr 255))) ∧ decodeTableWord 8 0xFF = none := by decide

/-- A placed word is the first instruction after reset, and also where PC leaves no room or the engine is Halted. -/
theorem test_withFetchWord :
    after (State.reset.withFetchWord 32 0x69100040) (·.b) = some (64#32, 4#32, .running) ∧
      after (State.withFetchWord { State.reset with pc := 393215#32, engine := .halted .returned } 24 0x6D0003) (·.s) =
        some (3#32, 3#32, .running) := by decide


/-! ### Format 1 -/

/-- V-J13. -/
theorem test_rsub_returns :
    after (ready 5#32 [0x4C#8] { State.reset with l := 9#32 }) (·.l) =
      some (9#32, 9#32, .running) := by decide

/-- V-F1. -/
theorem test_rsub_stops_at_the_last_byte :
    after (ready 0x5FFFF#32 [0x4C#8] State.reset) (·.l) =
      some (0#32, 0#32, .halted .returned) := by decide

/-! ### Format 2, at address 0x10 -/

/-- V-R2. -/
theorem test_addr_wraps :
    after (ready 16#32 [0x90#8, 0x10#8] { State.reset with a := 0x7FFFFFFF#32, x := 1#32 }) (·.a) =
      some (0x80000000#32, 18#32, .running) := by decide

/-- V-R40. -/
theorem test_addr_into_pc :
    after (ready 16#32 [0x90#8, 0x08#8] { State.reset with a := 32#32 }) (·.a) =
      some (32#32, 50#32, .running) := by decide

/-- V-R3. -/
theorem test_subr_subtracts_r1 :
    after (ready 16#32 [0x94#8, 0x40#8] { State.reset with a := 5#32, s := 3#32 }) (·.a) =
      some (2#32, 18#32, .running) := by decide

/-- V-R5. -/
theorem test_mulr_wraps :
    after (ready 16#32 [0x98#8, 0x40#8] { State.reset with a := 0x10000#32, s := 0x10000#32 }) (·.a) =
      some (0#32, 18#32, .running) := by decide

/-- V-R6. -/
theorem test_mulr_negative :
    after (ready 16#32 [0x98#8, 0x40#8] { State.reset with a := (-3#32), s := 4#32 }) (·.a) =
      some (-12#32, 18#32, .running) := by decide

/-- V-R7. -/
theorem test_divr_truncates :
    after (ready 16#32 [0x9C#8, 0x10#8] { State.reset with a := (-7#32), x := 2#32 }) (·.a) =
      some (-3#32, 18#32, .running) := by decide

/-- V-R33. -/
theorem test_divr_checks_numbers_first :
    after (ready 16#32 [0x9C#8, 0xF1#8] { State.reset with a := 1#32 }) (·.a) =
      some (1#32, 16#32, .halted .invalidRegister) := by decide

/-- V-R12. -/
theorem test_rmo_reads_the_advanced_pc :
    after (ready 16#32 [0xAC#8, 0x80#8] State.reset) (·.a) =
      some (18#32, 18#32, .running) := by decide

/-- V-R14. -/
theorem test_rmo_writes_sw :
    after (ready 16#32 [0xAC#8, 0x09#8] { State.reset with a := (-5#32) }) (fun t => (t.a, t.sw)) =
      some ((-5#32, .less), 18#32, .running) := by decide

/-- V-R16. -/
theorem test_compr_is_signed :
    after (ready 16#32 [0xA0#8, 0x04#8] { State.reset with a := (-1#32), s := 0xFFFFFF#32 }) (fun t => (t.a, t.sw)) =
      some ((-1#32, .less), 18#32, .running) := by decide

/-- V-R17. -/
theorem test_compr_greater :
    after (ready 16#32 [0xA0#8, 0x01#8] { State.reset with a := 0xFFFFFF#32 }) (fun t => (t.a, t.sw)) =
      some ((0xFFFFFF#32, .greater), 18#32, .running) := by decide

/-- V-R19. -/
theorem test_clear_ignores_r2 :
    after (ready 16#32 [0xB4#8, 0x17#8] { State.reset with x := 5#32 }) (·.x) =
      some (0#32, 18#32, .running) := by decide

/-- V-R20. -/
theorem test_clear_sw :
    after (ready 16#32 [0xB4#8, 0x90#8] { State.reset with sw := .greater }) (fun t => (t.a, t.sw)) =
      some ((0#32, .equal), 18#32, .running) := by decide

/-- V-R24. -/
theorem test_shiftl_does_not_rotate :
    after (ready 16#32 [0xA4#8, 0x00#8] { State.reset with a := 0x80000001#32 }) (·.a) =
      some (2#32, 18#32, .running) := by decide

/-- V-R36. -/
theorem test_shiftl_count_is_no_register :
    after (ready 16#32 [0xA4#8, 0x06#8] { State.reset with a := 6#32 }) (·.a) =
      some (768#32, 18#32, .running) := by decide

/-- V-R25. -/
theorem test_shiftr_by_eight :
    after (ready 16#32 [0xA8#8, 0x57#8] { State.reset with t := 0x123456#32 }) (·.t) =
      some (0x1234#32, 18#32, .running) := by decide

/-- V-R26. -/
theorem test_shiftr_is_arithmetic :
    after (ready 16#32 [0xA8#8, 0x01#8] { State.reset with a := (-16#32) }) (·.a) =
      some (-4#32, 18#32, .running) := by decide

/-- V-R29. -/
theorem test_tixr_reads_the_new_x :
    after (ready 16#32 [0xB8#8, 0x10#8] { State.reset with x := 4#32 }) (fun t => (t.x, t.sw)) =
      some ((5#32, .equal), 18#32, .running) := by decide

/-- V-R30. -/
theorem test_tixr_wraps :
    after (ready 16#32 [0xB8#8, 0x00#8] { State.reset with x := 0x7FFFFFFF#32 }) (fun t => (t.x, t.sw)) =
      some ((0x80000000#32, .less), 18#32, .running) := by decide

/-! ### Loads and stores -/

/-- V-L2. -/
theorem test_lda_zero_extends :
    after (ready 0#32 [0x00#8, 0x00#8, 0x30#8] (put 48 [0xFF#8, 0xFF#8, 0xFF#8] State.reset)) (·.a) =
      some (0xFFFFFF#32, 3#32, .running) := by decide

/-- V-A7. -/
theorem test_lda_pointer_out_of_range :
    after (ready 0#32 [0x02#8, 0x00#8, 0x30#8] (put 48 [0x05#8, 0xFF#8, 0xFF#8] { State.reset with a := 7#32 })) (·.a) =
      some (7#32, 0#32, .halted .outOfBounds) := by decide

/-- V-A14. -/
theorem test_ldx_uses_the_old_x :
    after (ready 0#32 [0x05#8, 0x80#8, 0x10#8] { State.reset with x := 4#32 }) (·.x) =
      some (20#32, 3#32, .running) := by decide

/-- P3, LDL RETADR with 00 00 09 in RETADR. -/
theorem test_ldl_pc_relative :
    after (ready 12#32 [0x08#8, 0x20#8, 0x07#8] (put 22 [0x00#8, 0x00#8, 0x09#8] State.reset)) (·.l) =
      some (9#32, 15#32, .running) := by decide

/-- V-L5. -/
theorem test_ldb_format4 :
    after (ready 0#32 [0x69#8, 0x10#8, 0x00#8, 0x40#8] State.reset) (·.b) =
      some (64#32, 4#32, .running) := by decide

/-- V-L6. -/
theorem test_lds_immediate :
    after (ready 0#32 [0x6D#8, 0x00#8, 0x03#8] State.reset) (·.s) =
      some (3#32, 3#32, .running) := by decide

/-- V-L7, the pointer at 3 + 0x38. -/
theorem test_ldt_indirect :
    after (ready 0#32 [0x76#8, 0x20#8, 0x38#8] (put 64 [0x12#8, 0x34#8, 0x56#8] (put 59 [0x00#8, 0x00#8, 0x40#8] State.reset))) (·.t) =
      some (0x123456#32, 3#32, .running) := by decide

/-- V-L10. -/
theorem test_sta_stores_low_24_bits :
    after (ready 0#32 [0x0C#8, 0x00#8, 0x30#8] { State.reset with a := 0x12345678#32 }) (bytesFrom 48 3) =
      some ([0x34#8, 0x56#8, 0x78#8], 3#32, .running) := by decide

/-- V-L16. -/
theorem test_sta_past_the_last_word :
    after (ready 0#32 [0x0C#8, 0x15#8, 0xFF#8, 0xFE#8] { State.reset with a := 1#32 }) (bytesFrom 393214 2) =
      some ([0x00#8, 0x00#8], 0#32, .halted .outOfBounds) := by decide

/-- V-L11. -/
theorem test_stx_direct :
    after (ready 0#32 [0x10#8, 0x00#8, 0x30#8] { State.reset with x := 9#32 }) (bytesFrom 48 3) =
      some ([0x00#8, 0x00#8, 0x09#8], 3#32, .running) := by decide

/-- P3, STL RETADR with L = 9 instead of 0. -/
theorem test_stl_pc_relative :
    after (ready 0#32 [0x14#8, 0x20#8, 0x13#8] { State.reset with l := 9#32 }) (bytesFrom 22 3) =
      some ([0x00#8, 0x00#8, 0x09#8], 3#32, .running) := by decide

/-- V-L12. -/
theorem test_stb_base_relative :
    after (ready 0#32 [0x78#8, 0x40#8, 0x00#8] { State.reset with b := 64#32 }) (bytesFrom 64 3) =
      some ([0x00#8, 0x00#8, 0x40#8], 3#32, .running) := by decide

/-- V-L13. -/
theorem test_sts_format4 :
    after (ready 0#32 [0x7C#8, 0x10#8, 0x01#8, 0x00#8] { State.reset with s := 3#32 }) (bytesFrom 256 3) =
      some ([0x00#8, 0x00#8, 0x03#8], 4#32, .running) := by decide

/-- V-L14. -/
theorem test_stt_truncates :
    after (ready 0#32 [0x84#8, 0x00#8, 0x60#8] { State.reset with t := 0x1ABCDEF#32 }) (bytesFrom 96 3) =
      some ([0xAB#8, 0xCD#8, 0xEF#8], 3#32, .running) := by decide

/-- V-L18. -/
theorem test_ldch_out_of_range_gives_zero :
    after (ready 0#32 [0x50#8, 0x0F#8, 0xFF#8] { State.reset with a := 0x7FFFFF12#32 }) (·.a) =
      some (0x7FFFFF00#32, 3#32, .running) := by decide

/-- V-L17. -/
theorem test_ldch_keeps_the_high_bits :
    after (ready 0#32 [0x50#8, 0x40#8, 0x03#8] (put 67 [0x78#8] { State.reset with a := 0x123456#32, b := 64#32 })) (·.a) =
      some (0x123478#32, 3#32, .running) := by decide

/-- V-L20. -/
theorem test_stch_base_relative :
    after (ready 0#32 [0x54#8, 0x40#8, 0x06#8] { State.reset with a := 0x123478#32, b := 64#32 }) (bytesFrom 69 3) =
      some ([0x00#8, 0x78#8, 0x00#8], 3#32, .running) := by decide

/-- V-L21. -/
theorem test_stch_out_of_range_is_dropped :
    after (ready 0#32 [0x54#8, 0x16#8, 0x00#8, 0x00#8] { State.reset with a := 85#32 }) (bytesFrom 393215 2) =
      some ([0x00#8, 0x00#8], 4#32, .running) := by decide

/-! ### Arithmetic, logic and compare -/

/-- V-M2. -/
theorem test_add_wraps :
    after (ready 0#32 [0x19#8, 0x00#8, 0x01#8] { State.reset with a := 0x7FFFFFFF#32 }) (·.a) =
      some (0x80000000#32, 3#32, .running) := by decide

/-- V-M4. -/
theorem test_add_memory_is_unsigned :
    after (ready 0#32 [0x18#8, 0x00#8, 0x30#8] (put 48 [0xFF#8, 0xFF#8, 0xFF#8] State.reset)) (·.a) =
      some (0xFFFFFF#32, 3#32, .running) := by decide

/-- V-M6. -/
theorem test_sub_negative_immediate :
    after (ready 0#32 [0x1D#8, 0x08#8, 0x00#8] State.reset) (·.a) =
      some (2048#32, 3#32, .running) := by decide

/-- V-M8. -/
theorem test_mul_wraps :
    after (ready 0#32 [0x21#8, 0x11#8, 0x00#8, 0x00#8] { State.reset with a := 0x10000#32 }) (·.a) =
      some (0#32, 4#32, .running) := by decide

/-- V-M10. -/
theorem test_div_truncates :
    after (ready 0#32 [0x25#8, 0x00#8, 0x02#8] { State.reset with a := (-7#32) }) (·.a) =
      some (-3#32, 3#32, .running) := by decide

/-- V-M11. -/
theorem test_div_overflow :
    after (ready 0#32 [0x25#8, 0x0F#8, 0xFF#8] { State.reset with a := 0x80000000#32 }) (·.a) =
      some (0x80000000#32, 3#32, .running) := by decide

/-- V-M14. -/
theorem test_and_32_bits :
    after (ready 0#32 [0x40#8, 0x00#8, 0x30#8] (put 48 [0xFF#8, 0xFF#8, 0xFF#8] { State.reset with a := (-1#32) })) (·.a) =
      some (0xFFFFFF#32, 3#32, .running) := by decide

/-- V-M16. -/
theorem test_or_sign_extends :
    after (ready 0#32 [0x45#8, 0x08#8, 0x00#8] State.reset) (·.a) =
      some (0xFFFFF800#32, 3#32, .running) := by decide

/-- V-M18. -/
theorem test_comp_is_signed :
    after (ready 0#32 [0x28#8, 0x00#8, 0x30#8] (put 48 [0xFF#8, 0xFF#8, 0xFF#8] { State.reset with a := (-1#32) })) (fun t => (t.a, t.sw)) =
      some ((-1#32, .less), 3#32, .running) := by decide

/-- V-M22. -/
theorem test_tix_wraps :
    after (ready 0#32 [0x2D#8, 0x00#8, 0x00#8] { State.reset with x := 0x7FFFFFFF#32 }) (fun t => (t.x, t.sw)) =
      some ((0x80000000#32, .less), 3#32, .running) := by decide

/-- V-M24. -/
theorem test_tix_target_uses_the_old_x :
    after (ready 0#32 [0x2C#8, 0x80#8, 0x30#8] (put 51 [0x00#8, 0x00#8, 0x04#8] { State.reset with x := 3#32 })) (fun t => (t.x, t.sw)) =
      some ((4#32, .equal), 3#32, .running) := by decide

/-! ### Control transfer -/

/-- V-A13, with a word at 0x30 that no J reads. -/
theorem test_j_ignores_n_and_i :
    after (ready 0#32 [0x3E#8, 0x00#8, 0x30#8] (put 48 [0x00#8, 0x01#8, 0x23#8] State.reset)) (·.l) =
      some (0#32, 48#32, .running) := by decide

/-- V-J11. -/
theorem test_j_out_of_memory_completes :
    after (ready 0#32 [0x3C#8, 0x16#8, 0x00#8, 0x00#8] State.reset) (·.l) =
      some (0#32, 0x60000#32, .running) := by decide

/-- V-J3. -/
theorem test_jeq_taken :
    after (ready 0#32 [0x30#8, 0x20#8, 0x06#8] State.reset) (·.l) =
      some (0#32, 9#32, .running) := by decide

/-- V-J4. -/
theorem test_jeq_not_taken :
    after (ready 0#32 [0x30#8, 0x20#8, 0x06#8] { State.reset with sw := .less }) (·.l) =
      some (0#32, 3#32, .running) := by decide

/-- V-J5. -/
theorem test_jgt_taken :
    after (ready 0#32 [0x34#8, 0x20#8, 0x06#8] { State.reset with sw := .greater }) (·.l) =
      some (0#32, 9#32, .running) := by decide

/-- V-J6. -/
theorem test_jgt_not_taken :
    after (ready 0#32 [0x34#8, 0x20#8, 0x06#8] State.reset) (·.l) =
      some (0#32, 3#32, .running) := by decide

/-- V-J7. -/
theorem test_jlt_taken :
    after (ready 19#32 [0x38#8, 0x2F#8, 0xF6#8] { State.reset with sw := .less }) (·.l) =
      some (0#32, 12#32, .running) := by decide

/-- V-J9. -/
theorem test_jsub_links_the_next_instruction :
    after (ready 32#32 [0x48#8, 0x10#8, 0x01#8, 0x00#8] State.reset) (·.l) =
      some (36#32, 256#32, .running) := by decide

/-- V-J10. -/
theorem test_jsub_indexed :
    after (ready 0#32 [0x48#8, 0x80#8, 0x20#8] { State.reset with x := 8#32 }) (·.l) =
      some (3#32, 40#32, .running) := by decide

/-! ### Fetch and halts -/

/-- V-F9. -/
theorem test_fetch_past_the_end :
    after (ready 0x60000#32 [] State.reset) (·.a) =
      some (0#32, 0x60000#32, .halted .outOfBounds) := by decide

/-- V-F6. -/
theorem test_class_checked_before_byte1 :
    after (ready 0x5FFFF#32 [0xFF#8] State.reset) (·.a) =
      some (0#32, 0x5FFFF#32, .halted .unimplementedOpcode) := by decide

/-- V-F5. -/
theorem test_byte3_out_of_range :
    after (ready 0x5FFFD#32 [0x01#8, 0x10#8, 0x00#8] { State.reset with a := 1#32 }) (·.a) =
      some (1#32, 0x5FFFD#32, .halted .outOfBounds) := by decide

/-- V-D13. -/
theorem test_p_wins_over_b :
    after (ready 0#32 [0x01#8, 0x60#8, 0x05#8] { State.reset with b := 100#32 }) (·.a) =
      some (8#32, 3#32, .running) := by decide

/-- V-D5. -/
theorem test_format4_ignores_b_and_p :
    after (ready 0#32 [0x01#8, 0x70#8, 0x00#8, 0x10#8] State.reset) (·.a) =
      some (16#32, 4#32, .running) := by decide

/-! ### The engine and the host -/

/-- V-D14: RSUB after reset ends `run()` after one step. -/
theorem test_run_rsub :
    run [false, false] (loadBytes State.reset [0x4C#8]) =
      .returned { State.reset with mem := [(0, 0x4C#8)], engine := .halted .returned } := by decide

/-- V-H5: a request set before `run()` makes it return before any step. -/
theorem test_cancel_before_run :
    run [false, false] (hostCancel (loadBytes State.reset [0x4C#8])) =
      .returned (loadBytes State.reset [0x4C#8]) := by decide

/-- V-H1, V-H2: a Halted engine stays. -/
theorem test_halted_stays :
    after { State.reset with pc := 5#32, engine := .halted .divisionByZero } (·.a) =
        some (0#32, 5#32, .halted .divisionByZero) ∧
      run [false] { State.reset with engine := .halted .divisionByZero } =
        .returned { State.reset with engine := .halted .divisionByZero } := by decide

/-- V-H3: `load` keeps registers and the bytes it does not reach. -/
theorem test_load_after_halt :
    let t := loadBytes (put 1 [7#8] { State.reset with a := 8#32, pc := 3#32, engine := .halted .returned }) [0x4C#8]
    (t.a, t.pc, t.engine, bytesFrom 0 2 t) = (8#32, 0#32, .idle, [0x4C#8, 7#8]) := by decide

/-- V-H8, at the last byte: bytes past the end of memory are dropped. -/
theorem test_bytes_past_the_end : writeBytes size [] 393215 [1#8, 2#8, 3#8] = [(393215, 1#8)] := by decide

/-- W1: words written and read back by index, up to the last word. -/
theorem test_word_index :
    (writeWord size [] 131071 (-1#32)).bind (readWord size · 131071) = .ok 0xFFFFFF#24 ∧
      (writeWord size [] 0 0x12345678#32).bind (readWord size · 0) = .ok 0x345678#24 ∧
      writeWord size [] 0 0x80000000#32 = .ok [] ∧ readWord size [] 131072 = .error .outOfBounds := by decide

/-- W7 and W5: what the encoding contract makes of a target at the edges of its range. -/
theorem test_asmFormat3 :
    asmFormat3 Config.default.opcodes .lda 0 2050 none = .ok [0x00#8, 0x27#8, 0xFF#8] ∧ asmFormat3 Config.default.opcodes .lda 0 2051 none = .error .range ∧
      asmFormat3 Config.default.opcodes .lda 0 2051 (some 2051) = .ok [0x00#8, 0x40#8, 0x00#8] ∧
      asmFormat3 Config.default.opcodes .lda 2045 0 none = .ok [0x00#8, 0x28#8, 0x00#8] ∧
      asmFormat3 Config.default.opcodes .lda 2051 0 none = .error .range ∧ asmFormat3 Config.default.opcodes .sta 6 16 none = .ok [0x0C#8, 0x20#8, 0x07#8] := by decide

/-- R96: data directives, sizes and bytes. -/
theorem test_directives :
    (Directive.word 5).output .error true = .ok [0#8, 0#8, 5#8] ∧
      (Directive.word (-1)).output .error false = .ok [0xFF#8, 0xFF#8, 0xFF#8] ∧
      (Directive.resw 2).output .error true = .ok (List.replicate 6 0#8) ∧
      (Directive.resw 2).output .error false = .ok [] ∧
      (Directive.byteHex [15#4, 1#4]).output .error true = .ok [0xF1#8] ∧
      (Directive.byteHex [15#4, 1#4, 2#4]).size = 2 := by decide

/-- D41: the three values of `BYTE_X_ODD_PAD` on the digits F12. -/
theorem test_odd_digits :
    asmByteHex .leadingZero [15#4, 1#4, 2#4] = .ok [0x0F#8, 0x12#8] ∧
      asmByteHex .trailingZero [15#4, 1#4, 2#4] = .ok [0xF1#8, 0x20#8] ∧
      asmByteHex .error [15#4, 1#4, 2#4] = .error .oddDigits := by decide

/-- R285, R286: the numeric codes, and the byte accessor at both ends of memory. -/
theorem test_codes :
    [Engine.idle, .running, .halted .returned].map (·.code) = [0, 1, 2] ∧
      [HaltReason.returned, .divisionByZero, .unimplementedOpcode, .outOfBounds, .invalidRegister].map (·.code) =
        [1, 2, 3, 4, 5] ∧
      hostByte State.reset 393215 = some 0#8 ∧ hostByte State.reset 393216 = none := by decide


/-! ### Witnesses for the hypotheses of the statements -/

theorem test_witness_DecodeEncodeRoundTrip :
    Config.default.opcodes.wf = true ∧ small.config.opcodes.wf = true ∧
    WellFormed (.lda (plain true (.disp (-2048)))) ∧ WellFormed (.stch (plain false (.disp 2047))) ∧
      WellFormed (.j (plain false (.addr 0))) ∧ WellFormed (.tix (plain false (.addr 1048575))) ∧
      WellFormed .rsub ∧ WellFormed (.addr 15#4 15#4) := by decide

theorem test_witness_DecodeDropsOnlyIgnoredBits :
    Config.default.opcodes.wf = true ∧
    decodeBytes [0xB7#8, 0x17#8, 0xFF#8] = .ok (.clear 1#4, [0xFF#8]) ∧ decodeBytes [0x4F#8] = .ok (.rsub, []) ∧
      decodeBytes [0x93#8, 0x40#8] = .ok (.addr 4#4 0#4, []) ∧
      decodeBytes [0x03#8, 0xF8#8, 0x00#8, 0x01#8] =
        .ok (.lda ⟨true, true, true, true, true, .addr 0x80001⟩, []) := by decide

theorem test_witness_UnlistedClassesDecodeToNothing :
    opcodeClass 0x58#8 = 0x16#6 ∧ 0x30#6 ≤ opcodeClass 0xC0#8 ∧ ¬0x30#6 ≤ opcodeClass 0xB8#8 := by decide

/-- Clauses 1, 2, 4 and 5 at the last byte of memory and on two bytes of one class. -/
theorem test_witness_OpcodeClassLookup :
    let s := ready 393215#32 [0xFF#8] State.reset
    (isHalted s = false ∧ 0 ≤ s.pc.toInt ∧ s.pc.toInt < s.memBytes ∧
      (rowOfClass s.config.opcodes ((s.mem.read s.pc.toInt.toNat).extractLsb' 2 6)).isNone = true) ∧
    (rowOfClass Config.default.opcodes ((0xFF#8).extractLsb' 2 6)).isNone = true ∧
    (0x90#8).extractLsb' 2 6 = (0x93#8).extractLsb' 2 6 ∧ decodeBytes [0x93#8, 0x40#8] = .ok (.addr 4#4 0#4, []) ∧
    (0x00#8).extractLsb' 2 6 = (0x03#8).extractLsb' 2 6 ∧
    decodeBytes [0x00#8, 0x20#8, 0x07#8] = .ok (.lda ⟨false, false, false, false, true, .disp 7⟩, []) := by decide

/-- Clauses 3 and 4: the rows of a format-2 class. -/
theorem test_witness_OpcodeClassLookup_rows :
    rowOfClass Config.default.opcodes ((0x93#8).extractLsb' 2 6) = some ⟨.addr, 0x24#6⟩ ∧
      isLong (.format2 .addr) = false := ⟨rfl, rfl⟩

theorem test_witness_FetchOutsideMemoryHalts :
    let s1 : State := { State.reset with pc := -1#32 }
    let s2 : State := { State.reset with pc := 393216#32, engine := .running }
    (isHalted s1 = false ∧ ¬(0 ≤ s1.pc.toInt ∧ s1.pc.toInt < s1.memBytes)) ∧
      (isHalted s2 = false ∧ ¬(0 ≤ s2.pc.toInt ∧ s2.pc.toInt < s2.memBytes)) := by decide

/-- The byte 90 at the last address but one, where byte1 is in memory, and at the last, where it is not. -/
theorem test_witness_FormatTwoFetchesOneMoreByte :
    let s1 := ready 393214#32 [0x90#8] State.reset
    let s2 := ready 393215#32 [0x90#8] State.reset
    (isHalted s1 = false ∧ 0 ≤ s1.pc.toInt ∧ s1.pc.toInt + 1 < s1.memBytes) ∧
      (isHalted s2 = false ∧ s2.pc.toInt < s2.memBytes ∧ s2.memBytes ≤ s2.pc.toInt + 1) ∧
      rowOfClass s1.config.opcodes ((s1.mem.read s1.pc.toInt.toNat).extractLsb' 2 6) = some ⟨.addr, 0x24#6⟩ ∧
      rowOfClass s2.config.opcodes ((s2.mem.read s2.pc.toInt.toNat).extractLsb' 2 6) = some ⟨.addr, 0x24#6⟩ :=
  ⟨by decide, by decide, rfl, rfl⟩

/-- Each clause at the address next to its bound, with byte0 = 00 (LDA). -/
theorem test_witness_LongFormatFetch :
    let s1 := ready 393214#32 [0x00#8, 0x00#8] State.reset
    let s2 := ready 393213#32 [0x00#8, 0x0F#8, 0x00#8] State.reset
    let s3 := ready 393213#32 [0x00#8, 0x10#8, 0x00#8] State.reset
    let s4 := ready 393212#32 [0x00#8, 0x10#8, 0x00#8, 0x00#8] State.reset
    (∀ s ∈ [s1, s2, s3, s4], isHalted s = false ∧ 0 ≤ s.pc.toInt ∧ s.pc.toInt < s.memBytes) ∧
      s1.memBytes ≤ s1.pc.toInt + 2 ∧
      (s2.pc.toInt + 2 < s2.memBytes ∧ (s2.mem.read (s2.pc.toInt.toNat + 1)).getLsbD 4 = false) ∧
      ((s3.mem.read (s3.pc.toInt.toNat + 1)).getLsbD 4 = true ∧ s3.memBytes ≤ s3.pc.toInt + 3) ∧
      ((s4.mem.read (s4.pc.toInt.toNat + 1)).getLsbD 4 = true ∧ s4.pc.toInt + 3 < s4.memBytes) ∧
      rowOfClass s4.config.opcodes ((s4.mem.read s4.pc.toInt.toNat).extractLsb' 2 6) = some ⟨.lda, 0x00#6⟩ :=
  ⟨by decide, by decide, by decide, by decide, by decide, rfl⟩

theorem test_witness_StepRunsDecodedInstruction :
    let s := ready 393214#32 [0x90#8, 0x40#8] State.reset
    isHalted s = false ∧ decode s.config.opcodes (fetchWindow s) = .ok (.addr 4#4 0#4, []) := by decide

/-- The longest instruction in the last four bytes of memory. -/
theorem test_witness_StepRunsEncodedInstruction :
    let i : Instr := .lda (plain true (.addr 1048575))
    let s := ready 393212#32 (encodeBytes i) State.reset
    isHalted s = false ∧ WellFormed i ∧ s.config.opcodes.wf = true ∧ BytesAt s.memBytes s.mem s.pc.toInt (encodeBytes i) := by
  unfold BytesAt
  decide

theorem test_witness_halted_or_not :
    isHalted { State.reset with engine := .halted .outOfBounds } = true ∧ isHalted State.reset = false ∧
      isHalted { State.reset with engine := .running } = false := by decide

/-- A step from a state with a listed byte, and one that ends in Halted(Returned). -/
theorem test_witness_StepKeepsInv :
    let s := ready 393213#32 [0x0C#8, 0x00#8, 0x30#8] { State.reset with a := 7#32 }
    let r := ready 393215#32 [0x4C#8] State.reset
    (StateInv s ∧ step s = .next { s with pc := 393216#32, engine := .running, mem := (50, 7#8) :: s.mem }) ∧
      StateInv r ∧ step r = .next { r with pc := 0#32, engine := .halted .returned } := by
  simp only [eq_next_iff]
  decide

theorem test_witness_HostOperationsKeepInv :
    let s := put 393215 [1#8] { State.reset with engine := .halted .returned }
    StateInv s ∧ run [true] s = .returned (hostCancel s) ∧ run [] s = .stillRunning s := by decide

theorem test_witness_MemoryChangesOnlyByStores :
    let s := ready 0#32 [0x54#8, 0x15#8, 0xFF#8, 0xFF#8] { State.reset with a := 7#32 }
    let t : State := { s with pc := 4#32, engine := .running, mem := s.mem ++ [(393215, 7#8)] }
    step s = .next t ∧ t.mem ≠ s.mem := by
  simp only [eq_next_iff]
  decide

/-- For each register an instruction that changes it. -/
theorem test_witness_RegisterWriters :
    let m : Addressing := ⟨false, true, false, false, false, .disp 1⟩
    let s := State.reset
    exec (.lda m) s = .next { done s 3 with a := 1#32 } ∧ exec (.ldx m) s = .next { done s 3 with x := 1#32 } ∧
      exec (.ldl m) s = .next { done s 3 with l := 1#32 } ∧ exec (.ldb m) s = .next { done s 3 with b := 1#32 } ∧
      exec (.lds m) s = .next { done s 3 with s := 1#32 } ∧ exec (.ldt m) s = .next { done s 3 with t := 1#32 } ∧
      exec (.comp m) s = .next { done s 3 with sw := .less } ∧ Reg.a ≠ .sw := by
  simp only [eq_next_iff]
  decide

theorem test_witness_SequentialNextPc :
    let i : Instr := .lda ⟨false, true, false, false, false, .disp 1⟩
    let t : State := { done State.reset 3 with a := 1#32 }
    i.mnemonic ∉ [.rsub, .j, .jeq, .jgt, .jlt, .jsub] ∧ format2Destination i = none ∧
      exec i State.reset = .next t ∧ t.engine = .running := by
  simp only [eq_next_iff]
  decide

theorem test_witness_invalid_numbers :
    InvalidNumber 6#4 ∧ InvalidNumber 7#4 ∧ InvalidNumber 10#4 ∧ InvalidNumber 15#4 ∧ ¬InvalidNumber 5#4 ∧
      ¬InvalidNumber 8#4 ∧ ¬InvalidNumber 9#4 := by decide

theorem test_witness_SwNumericView :
    (0x80000000#32).toInt < 0 ∧ (-1#32).toInt < 0 ∧ (0#32).toInt = 0 ∧ 0 < (1#32).toInt ∧ 0 < (0x7FFFFFFF#32).toInt := by
  decide

theorem test_witness_DivisionTruncates :
    (1#32 ≠ 0#32 ∧ ¬(BitVec.intMin 32 = BitVec.intMin 32 ∧ 1#32 = -1#32)) ∧
      (-1#32 ≠ 0#32 ∧ ¬(0x7FFFFFFF#32 = BitVec.intMin 32 ∧ -1#32 = -1#32)) := by decide

theorem test_witness_shift_counts_and_bits : 1 ≤ 1 ∧ 1 ≤ 16 ∧ 0 < 32 ∧ 31 < 32 := by decide

/-- Word addresses at the bounds: 0 and 393213 are in memory, -1 and 393214 are not. -/
theorem test_witness_word_bounds :
    (0 ≤ (0 : Int) ∧ (0 : Int) + 2 < size) ∧ (0 ≤ (393213 : Int) ∧ (393213 : Int) + 2 < size) ∧
      ((-1 : Int) < 0 ∨ size ≤ (-1 : Int) + 2) ∧ size ≤ (393214 : Int) + 2 ∧
      Memory.wf size [(393213, 1#8)] = true := by decide

/-- Byte addresses at the bounds: 0 and 393215 are in memory, -1 and 393216 are not. -/
theorem test_witness_byte_bounds :
    (0 ≤ (0 : Int) ∧ (0 : Int) < size) ∧ (0 ≤ (393215 : Int) ∧ (393215 : Int) < size) ∧
      ((-1 : Int) < 0 ∨ size ≤ (-1 : Int)) ∧ size ≤ (393216 : Int) := by decide

theorem test_witness_WordRoundTripAndMixedWidths :
    Memory.wf size [] = true ∧ memWriteWord size [] 393213 0x010203#32 = .ok [(393213, 1#8), (393214, 2#8), (393215, 3#8)] ∧
      Memory.wf (3 * 131072) [] = true ∧
      (0 ≤ (131071 : Int) ∧ (131071 : Int) < (131072 : Nat)) ∧ ((-1 : Int) < 0 ∨ (131072 : Nat) ≤ (-1 : Int)) ∧
      ((131072 : Nat) : Int) ≤ 131072 := by decide

/-- A field of each format, and each choice of p and b. -/
theorem test_witness_addressing :
    let d (b p : Bool) : Addressing := ⟨false, false, false, b, p, .disp (-2048)⟩
    ((d true true).field = .disp (-2048) ∧ (d true true).p = true) ∧
      ((d true false).p = false ∧ (d true false).b = true) ∧ ((d false false).p = false ∧ (d false false).b = false) ∧
      (plain true (.addr 1048575)).field = .addr 1048575 := by decide

/-- The four combinations of n and i, and the operand each gives at 48: the target, the word there, and the word at the
pointer there. -/
theorem test_witness_OperandResolution :
    let m (n i : Bool) : Addressing := ⟨n, i, false, false, false, .disp 48⟩
    let s := put 48 [0#8, 0#8, 96#8] (put 96 [0#8, 0#8, 7#8] State.reset)
    (m false true).n = false ∧ (m false true).i = true ∧ (m true false).n = true ∧ (m true false).i = false ∧
      (m true true).n = (m true true).i ∧ (m false false).n = (m false false).i ∧
      operand s (m false true) = .ok 48#32 ∧ operand s (m true false) = .ok 7#32 ∧
      operand s (m false false) = .ok 96#32 ∧ operand s (m true true) = .ok 96#32 := by decide

/-- Readable: immediate with a target no word can be read at, and direct at the last word. -/
theorem test_witness_OperandReadable :
    OperandReadable State.reset ⟨false, true, false, false, false, .addr 1048575⟩ ∧
      OperandReadable State.reset (plain false (.addr 393213)) ∧
      OperandReadable State.reset ⟨true, true, false, false, false, .disp 0⟩ := by
  simp only [OperandReadable, modeOf, plain]
  decide

/-- Readable through a pointer to the last word. -/
theorem test_witness_OperandReadable_indirect :
    OperandReadable (put 48 [0x05#8, 0xFF#8, 0xFD#8] State.reset) ⟨true, false, false, false, false, .disp 48⟩ := by
  simp only [OperandReadable, modeOf]
  decide

/-- Not readable: at -1, at 393214, and through a pointer to 393214. -/
theorem test_witness_not_OperandReadable :
    ¬OperandReadable State.reset (plain false (.disp (-1))) ∧
      ¬OperandReadable State.reset (plain false (.addr 393214)) ∧
      ¬OperandReadable (put 48 [0x05#8, 0xFF#8, 0xFE#8] State.reset) ⟨true, false, false, false, false, .disp 48⟩ := by
  simp only [OperandReadable, modeOf, plain]
  decide

theorem test_witness_WordLoads :
    modeOf (plain false (.addr 393213)) ≠ .immediate ∧ modeOf ⟨true, false, false, false, false, .disp 0⟩ ≠ .immediate := by
  decide

theorem test_witness_WordStores :
    (0 ≤ effective State.reset (plain false (.addr 393213)) ∧
        effective State.reset (plain false (.addr 393213)) + 2 < size) ∧
      size ≤ effective State.reset (plain false (.addr 393214)) + 2 ∧
      effective State.reset (plain false (.disp (-1))) < 0 := by decide

theorem test_witness_CharacterStore :
    (0 ≤ effective State.reset (plain false (.addr 393215)) ∧
        effective State.reset (plain false (.addr 393215)) < size) ∧
      size ≤ effective State.reset (plain false (.addr 393216)) ∧
      effective State.reset (plain false (.disp (-1))) < 0 := by decide

/-- A readable divisor that is not 0, and one that is. -/
theorem test_witness_DivideAccumulator :
    operandValue State.reset ⟨false, true, false, false, false, .disp (-1)⟩ ≠ 0#32 ∧
      OperandReadable State.reset ⟨false, true, false, false, false, .disp (-1)⟩ ∧
      operandValue State.reset (plain false (.addr 393213)) = 0#32 := by
  simp only [OperandReadable, modeOf, plain]
  decide

theorem test_witness_JumpsAndCall :
    let s : State := { State.reset with pc := 393215#32 }
    0 ≤ State.reset.pc.toInt ∧ 0 ≤ s.pc.toInt ∧ s.pc.toInt < s.memBytes := by decide

/-- A target past the end of memory and one below 0, and the condition of each jump. -/
theorem test_witness_JumpOutsideMemoryHaltsNext :
    let greater : State := { State.reset with sw := .greater }
    let less : State := { State.reset with sw := .less }
    (∀ s ∈ [State.reset, greater, less],
      ¬(0 ≤ effective s (plain false (.addr 393216)) ∧ effective s (plain false (.addr 393216)) < s.memBytes) ∧
        ¬(0 ≤ effective s (plain false (.disp (-1))) ∧ effective s (plain false (.disp (-1))) < s.memBytes)) ∧
      State.reset.sw = .equal ∧ greater.sw = .greater ∧ less.sw = .less := by decide

theorem test_witness_ReturnFromSubroutine :
    let s : State := { State.reset with l := -4#32 }
    s.l ≠ 0#32 ∧ State.reset.l = 0#32 ∧ exec .rsub s = .next { s with pc := -4#32, engine := .running } := by
  simp only [eq_next_iff]
  decide

/-- Valid numbers, the last of each range, with a divisor that is not 0 and one that is. -/
theorem test_witness_register_numbers :
    let s : State := { State.reset with t := 5#32 }
    lookup 0#4 = .ok .a ∧ lookup 5#4 = .ok .t ∧ lookup 8#4 = .ok .pc ∧ lookup 9#4 = .ok .sw ∧ Reg.t ≠ .sw ∧
      regRead { s with pc := s.pc + 2#32 } .t ≠ 0#32 ∧ regRead { s with pc := s.pc + 2#32 } .a = 0#32 := by decide

/-- A completing step for each group of the frames that store nothing. -/
theorem test_witness_NonStoringFrame :
    let m := plain false (.addr 393213)
    exec (.lda m) State.reset = .next { done State.reset 4 with a := 0#32 } ∧
      exec (.tix m) State.reset = .next { done State.reset 4 with x := 1#32, sw := .greater } ∧
      exec (.j m) State.reset = .next { done State.reset 4 with pc := 393213#32 } ∧
      exec (.jsub m) State.reset = .next { done State.reset 4 with l := 4#32, pc := 393213#32 } ∧
      exec .rsub State.reset = .next { State.reset with engine := .halted .returned } := by
  simp only [eq_next_iff]
  decide

theorem test_witness_StoreFrame :
    let m := plain false (.addr 393213)
    let s : State := { State.reset with a := 0x010203#32 }
    exec (.sta m) s = .next { done s 4 with mem := [(393213, 1#8), (393214, 2#8), (393215, 3#8)] } ∧
      exec (.stch m) s = .next { done s 4 with mem := [(393213, 3#8)] } := by
  simp only [eq_next_iff]
  decide

theorem test_witness_RegisterOperationFrame :
    let s : State := { State.reset with t := 2#32 }
    exec (.addr 5#4 0#4) s = .next { done s 2 with a := 2#32 } ∧
      exec (.shiftl 5#4 15#4) s = .next { done s 2 with t := 0x20000#32 } ∧
      exec (.clear 5#4) s = .next { done s 2 with t := 0#32 } ∧
      exec (.compr 5#4 0#4) s = .next { done s 2 with sw := .greater } ∧
      exec (.tixr 5#4) s = .next { done s 2 with x := 1#32, sw := .less } := by
  simp only [eq_next_iff]
  decide

theorem test_witness_HostLoadAndReset :
    (put 393215 [1#8] State.reset).mem.wf size = true ∧ 0 < [0x4C#8].length ∧ 0 < size ∧ [0x4C#8].length ≤ 1 ∧
      size ≤ 393216 := by decide

/-- Two steps that reach a Halted state, and none that does not. -/
theorem test_witness_RunRepeatsStep :
    let s := loadBytes State.reset [0x4C#8]
    let t : State := { s with engine := .halted .returned }
    s.cancel = false ∧ Host.Core.run core 2 s = .next t ∧ isHalted t = true ∧ Host.Core.run core 0 s = .next s ∧
      isHalted s = false :=
  ⟨by decide, eq_next_iff.mpr (by decide), by decide, rfl, by decide⟩

theorem test_witness_CancellationReturns :
    isHalted State.reset = false ∧ (hostCancel State.reset).cancel = true := by decide

/-- Each form of format 3, PC-relative at its bound and base-relative. -/
theorem test_witness_AssembledFormatThreeReachesTarget :
    let s : State := { State.reset with pc := 393213#32, b := 2051#32 }
    Config.default.opcodes.wf = true ∧ isLong Mnemonic.lda.shape = true ∧
      asmFormat3 Config.default.opcodes .lda s.pc.toInt (393216 + 2047) none = .ok [0x00#8, 0x27#8, 0xFF#8] ∧
      s.b.toInt = 2051 ∧ asmFormat3 Config.default.opcodes .lda s.pc.toInt (2051 + 2047) (some 2051) = .ok [0x00#8, 0x47#8, 0xFF#8] := by decide

/-- The ends of the range of format 4, and an omitted r2 with a mnemonic that uses it and one that does not. -/
theorem test_witness_AssembledFormatFourReachesTarget :
    let t := Config.default.opcodes
    t.wf = true ∧ isLong Mnemonic.jsub.shape = true ∧
      asmFormat4 t .jsub 1048575 = .ok [0x48#8, 0x1F#8, 0xFF#8, 0xFF#8] ∧
      asmFormat4 t .lda 0 = .ok [0x00#8, 0x10#8, 0#8, 0#8] ∧
      asmFormat2 t .addr 4#4 none = [0x90#8, 0x40#8] ∧ asmFormat2 t .clear 1#4 none = [0xB4#8, 0x10#8] ∧
      asmFormat1 t .rsub = [0x4C#8] := by decide

end Sys2Proof.Tests
end

/-! PROOF. The register lookup and the register accessors of 10_state.md. -/

namespace Sys2Proof.Machine

/-- The numbers outside the valid set raise InvalidRegister (R27). -/
theorem lookup_of_invalidNumber {k : BitVec 4} (hk : InvalidNumber k) : lookup k = .error .invalidRegister := by
  unfold InvalidNumber at hk
  fin_cases hk <;> rfl

/-- Settles O20: the table of R27 is `lookup`'s own, and each register reads and writes its one field of the state. -/
theorem registerLookup : Obligations.RegisterLookup :=
  ⟨rfl, rfl, rfl, rfl, rfl, rfl, rfl, rfl, fun _ => lookup_of_invalidNumber,
    fun _ => ⟨rfl, rfl, rfl, rfl, rfl, rfl, rfl, rfl⟩, fun _ _ => ⟨rfl, rfl, rfl, rfl, rfl, rfl, rfl, rfl⟩⟩

end Sys2Proof.Machine

/-! PROOF. The checked and the lenient accesses of 20_memory.md, and which operations can change memory. -/

namespace Sys2Proof.Machine

/-! ### Words as numbers -/

/-- The value of a word is big-endian (R52). -/
theorem Memory.word_toNat (m : Memory) (a : Nat) :
    (m.word a).toNat = (m.read a).toNat * 65536 + (m.read (a + 1)).toNat * 256 + (m.read (a + 2)).toNat := by
  have h2 : (m.read (a + 2)).toNat < 2 ^ 8 := (m.read (a + 2)).isLt
  have h1 : (m.read (a + 1)).toNat < 2 ^ 8 := (m.read (a + 1)).isLt
  rw [Memory.word, BitVec.toNat_append, BitVec.toNat_append, ← Nat.shiftLeft_add_eq_or_of_lt h2,
    ← Nat.shiftLeft_add_eq_or_of_lt h1, Nat.shiftLeft_eq, Nat.shiftLeft_eq]
  omega

/-- A word placed in a register is the same number, never negative (R55). -/
theorem zext24_toInt (w : Word24) : (zext24 w).toInt = w.toNat := by
  have hw : w.toNat < 2 ^ 24 := w.isLt
  have hz : (zext24 w).toNat = w.toNat := BitVec.toNat_setWidth_of_le (by decide)
  rw [BitVec.toInt_eq_toNat_of_lt (by omega), hz]

/-- A word placed in a register leaves bits 31 to 24 at 0 (R55). -/
theorem zext24_top (w : Word24) : (zext24 w).extractLsb' 24 8 = 0#8 := by
  ext k hk
  simp [zext24]

/-- The bytes of `low24` are those of the register (R10, R56). -/
theorem low24_byte (v : S32) {k : Nat} (hk : k + 8 ≤ 24) : (low24 v).extractLsb' k 8 = v.extractLsb' k 8 := by
  ext j hj
  have hjk : k + j < 24 := by omega
  simp [low24, hjk]

/-- The lenient byte read gives the byte in memory, and 0 outside it (R58). -/
theorem byteRead_cases (size : Nat) (m : Memory) (a : Int) :
    ((0 ≤ a ∧ a < size) ∧ byteRead size m a = m.read a.toNat) ∨
      (¬(0 ≤ a ∧ a < size) ∧ byteRead size m a = 0#8) := by
  by_cases h : byteInRange size a = true
  · exact .inl ⟨byteInRange_iff.mp h, by simp [byteRead, h]⟩
  · exact .inr ⟨fun h' => h (byteInRange_iff.mpr h'), by simp [byteRead, h]⟩

/-! ### The bytes a write leaves as they were -/

/-- A word write changes its three bytes alone (R56). -/
theorem Memory.writeWord_sameBytesOutside (m : Memory) (w : Word24) {a : Int} (ha : 0 ≤ a) :
    SameBytesOutside m (m.writeWord a.toNat w) a 3 := fun _ _ =>
  Memory.read_writeWord_other w (by omega)

/-- A lenient byte write changes its one byte alone (R59). -/
theorem byteWrite_sameBytesOutside (size : Nat) (m : Memory) (a : Int) (v : Byte) :
    SameBytesOutside m (byteWrite size m a v) a 1 := fun _ _ =>
  read_byteWrite_other v (by omega)

/-- Bytes written one after the other change no byte outside their range (R321). -/
theorem writeBytes_sameBytesOutside (size : Nat) (m : Memory) (a : Int) (vs : List Byte) :
    SameBytesOutside m (writeBytes size m a vs) a vs.length := fun _ _ =>
  read_writeBytes_other vs (by omega)

/-! ### The accesses -/

/-- Settles O27: in range the read gives `Memory.word`, whose value is big-endian. -/
theorem wordReadIsBigEndian : Obligations.WordReadIsBigEndian := by
  refine ⟨fun size m a h0 h1 => ?_, fun size m a ha => ?_, fun w => ⟨zext24_toInt w, zext24_top w⟩, zext24_toInt _⟩
  · obtain ⟨-, he⟩ | ⟨hn, -⟩ := memReadWord_cases size m a
    · exact ⟨_, he, m.word_toNat a.toNat⟩
    · omega
  · obtain ⟨hr, -⟩ | ⟨-, he⟩ := memReadWord_cases size m a
    · omega
    · exact he

/-- Settles O28: in range the write stores the bytes of `low24`, which are those of the register. -/
theorem wordWriteStoresLow24 : Obligations.WordWriteStoresLow24 := by
  refine ⟨fun size m a v hm h0 h1 => ?_, fun size m a v ha => ?_⟩
  · obtain ⟨-, he⟩ | ⟨hn, -⟩ := memWriteWord_cases size m a v
    · obtain ⟨hi, mid, lo⟩ := Memory.read_writeWord (low24 v) hm (a := a.toNat) (by omega)
      rw [low24_byte v (by decide)] at hi mid lo
      exact ⟨_, he, hi, mid, lo, m.writeWord_sameBytesOutside _ h0⟩
    · omega
  · obtain ⟨hr, -⟩ | ⟨-, he⟩ := memWriteWord_cases size m a v
    · omega
    · exact he

/-- Settles O29: an access in range is a read or a write of the byte, and one out of range is 0 or nothing. -/
theorem byteAccessesAreLenient : Obligations.ByteAccessesAreLenient := by
  refine ⟨fun size m a h0 h1 => ?_, fun size m a ha => ?_, fun size m a v hm h0 h1 => ?_, fun size m a v ha => ?_⟩
  · obtain ⟨-, he⟩ | ⟨hn, -⟩ := byteRead_cases size m a
    · exact he
    · omega
  · obtain ⟨hr, -⟩ | ⟨-, he⟩ := byteRead_cases size m a
    · omega
    · exact he
  · obtain ⟨-, he⟩ | ⟨hn, -⟩ := byteWrite_cases size m a v
    · exact ⟨he ▸ Memory.read_write_same v hm, byteWrite_sameBytesOutside size m a v⟩
    · omega
  · obtain ⟨hr, -⟩ | ⟨-, he⟩ := byteWrite_cases size m a v
    · omega
    · exact he

/-! ### What leaves memory as it was -/

/-- The staged writes an end of `cycle()` commits, if any, leave memory at `mem` (R281, R284). -/
def CycleEnd.LeavesMem (mem : Memory) : CycleEnd → Prop
  | .completes u | .stopsReturned u => u.mem = mem
  | .raises _ => True

section

variable {s t : State} {m : Addressing} {r1 r2 : BitVec 4}

theorem commit_mem {c : CycleEnd} (h : commit s c = .next t) (hc : c.LeavesMem s.mem) : t.mem = s.mem := by
  obtain ⟨u, rfl, rfl⟩ | ⟨u, rfl, rfl⟩ | ⟨r, rfl, rfl⟩ := commit_cases c h
  · exact hc
  · exact hc
  · rfl

theorem withOperand_mem {f : State → S32 → CycleEnd} (h : withOperand m s f = .next t)
    (hf : ∀ v, (f (advance s m.length) v).LeavesMem s.mem) : t.mem = s.mem := by
  obtain ⟨v, -, he⟩ | ⟨-, he⟩ := withOperand_cases m s f
  · exact commit_mem (he ▸ h) (hf v)
  · cases he.symm.trans h
    rfl

theorem withTarget_mem {f : State → S32 → CycleEnd} (h : withTarget m s f = .next t)
    (hf : ∀ v, (f (advance s m.length) v).LeavesMem s.mem) : t.mem = s.mem :=
  commit_mem ((withTarget_eq m s f).symm.trans h) (hf _)

theorem withReg_mem {f : State → Reg → CycleEnd} (h : withReg r1 s f = .next t)
    (hf : ∀ p, (f (advance s 2) p).LeavesMem s.mem) : t.mem = s.mem := by
  obtain ⟨p, -, he⟩ | ⟨-, he⟩ := withReg_cases r1 s f
  · exact commit_mem (he ▸ h) (hf p)
  · cases he.symm.trans h
    rfl

theorem withRegs_mem {f : State → Reg → Reg → CycleEnd} (h : withRegs r1 r2 s f = .next t)
    (hf : ∀ p q, (f (advance s 2) p q).LeavesMem s.mem) : t.mem = s.mem := by
  obtain ⟨p, q, -, -, he⟩ | ⟨-, he⟩ := withRegs_cases r1 r2 s f
  · exact commit_mem (he ▸ h) (hf p q)
  · cases he.symm.trans h
    rfl

theorem jumpIf_mem {c : CondCode} (h : jumpIf c m s = .next t) : t.mem = s.mem := by
  cases (jumpIf_eq c m s).symm.trans h
  rfl

/-- A division leaves memory as it was, whether it raises or completes with a register written (R183, R243). -/
theorem leavesMem_div {u : State} (v : S32) (hu : u.mem = s.mem) :
    (if v = 0#32 then CycleEnd.raises .divisionByZero else .completes u).LeavesMem s.mem := by
  split
  · trivial
  · exact hu

/-- An instruction that is no store leaves memory as it was (R74). -/
theorem exec_mem {i : Instr} (hi : i.mnemonic ∉ storing) (h : exec i s = .next t) : t.mem = s.mem := by
  unfold exec at h
  cases i with
  | rsub =>
    refine commit_mem h ?_
    split
    · rfl
    · rfl
  | addr | subr | mulr | rmo => exact withRegs_mem h fun _ _ => regWrite_mem ..
  | divr => exact withRegs_mem h fun _ _ => leavesMem_div _ (regWrite_mem ..)
  | compr => exact withRegs_mem h fun _ _ => rfl
  | clear | shiftl | shiftr => exact withReg_mem h fun _ => regWrite_mem ..
  | tixr => exact withReg_mem h fun _ => rfl
  | lda | ldx | ldl | ldb | lds | ldt | add | sub | mul | and | or | comp | tix =>
    exact withOperand_mem h fun _ => rfl
  | div => exact withOperand_mem h fun v => leavesMem_div v rfl
  | sta | stx | stl | stb | sts | stt | stch => exact absurd (by simp [Instr.mnemonic, storing]) hi
  | ldch | j | jsub => exact withTarget_mem h fun _ => rfl
  | jeq | jgt | jlt => exact jumpIf_mem h

/-- A step that changes memory executes a store (R74): staying Halted and a halt of the fetch leave it. -/
theorem step_mem_changed (h : step s = .next t) (hm : t.mem ≠ s.mem) :
    ∃ i rest, decode s.config.opcodes (fetchWindow s) = .ok (i, rest) ∧ i.mnemonic ∈ storing := by
  obtain ⟨_, -, he⟩ | ⟨-, i, rest, hd, he⟩ | ⟨-, _, -, he⟩ := step_cases s
  · cases he.symm.trans h
    exact absurd rfl hm
  · exact ⟨i, rest, hd, by_contra fun hi => hm (exec_mem hi (he ▸ h))⟩
  · cases he.symm.trans h
    exact absurd rfl hm

end

/-- Settles O16: a step by `step_mem_changed`, `load` by the range of its writes, `reset` and `cancel` by definition. -/
theorem memoryChangesOnlyByStores : Obligations.MemoryChangesOnlyByStores :=
  ⟨fun _ _ => step_mem_changed, fun s bytes => writeBytes_sameBytesOutside s.memBytes s.mem 0 bytes,
    fun _ _ => rfl, fun _ => rfl⟩

end Sys2Proof.Machine

/-! PROOF. The class lookup, the failing fetch, the bitwise operations and the format-3 base of 40_datapath.md. -/

namespace Sys2Proof

variable {t : OpcodeTable} {b0 : Byte} {rest rest' : List Byte} {row : OpcodeRow} {i : Instr}

/-! ### The decoder by row -/

/-- A class without a row is unimplemented, whatever bytes follow (R122). -/
theorem decode_of_noRow (h : rowOfClass t (opcodeClass b0) = none) :
    decode t (b0 :: rest) = .error .unimplementedOpcode := by
  simp only [decode, h]

/-- A format-1 instruction is its byte0 alone (R81). -/
theorem decode_of_format1 (h : rowOfClass t (opcodeClass b0) = some row) (hs : row.mnemonic.shape = .format1 i) :
    decode t (b0 :: rest) = .ok (i, rest) := by
  simp only [decode, h, hs]

/-- A format-2 instruction is built from the nibbles of byte1 (R84). -/
theorem decode_of_format2 {mk : BitVec 4 → BitVec 4 → Instr} (b1 : Byte)
    (h : rowOfClass t (opcodeClass b0) = some row) (hs : row.mnemonic.shape = .format2 mk) :
    decode t (b0 :: b1 :: rest) = .ok (mk (b1.extractLsb' 4 4) (b1.extractLsb' 0 4), rest) := by
  simp only [decode, h, hs]

/-- A format-2 instruction without byte1 is truncated (R123). -/
theorem decode_of_format2_nil {mk : BitVec 4 → BitVec 4 → Instr} (h : rowOfClass t (opcodeClass b0) = some row)
    (hs : row.mnemonic.shape = .format2 mk) : decode t [b0] = .error .truncated := by
  simp only [decode, h, hs]

/-- Formats 3 and 4 go on to `decodeLong` (R124). -/
theorem decode_of_format34 {mk : Addressing → Instr} (h : rowOfClass t (opcodeClass b0) = some row)
    (hs : row.mnemonic.shape = .format34 mk) : decode t (b0 :: rest) = decodeLong mk b0 rest := by
  simp only [decode, h, hs]

/-- What decodes in formats 3 and 4 has an addressing of which byte0 gives n and i alone: another byte0 over the same
bytes changes those two flags and nothing else (R82, R83, R122). -/
theorem decodeLong_ok {mk : Addressing → Instr} (h : decodeLong mk b0 rest = .ok (i, rest')) :
    ∃ m : Addressing, i = mk m ∧
      ∀ b0' : Byte, decodeLong mk b0' rest = .ok (mk { m with n := b0'.getLsbD 1, i := b0'.getLsbD 0 }, rest') := by
  match rest with
  | [] => cases h
  | [_] => cases h
  | b1 :: b2 :: bs =>
    cases he : b1.getLsbD 4 with
    | false =>
      simp only [decodeLong, he] at h ⊢
      cases h
      exact ⟨_, rfl, fun _ => rfl⟩
    | true =>
      cases bs with
      | nil =>
        simp only [decodeLong, he] at h
        cases h
      | cons b3 bs =>
        simp only [decodeLong, he] at h ⊢
        cases h
        exact ⟨_, rfl, fun _ => rfl⟩

/-- Bytes decode in one of the three ways the format of their class's row gives (R80, R122). -/
theorem decode_ok_cases (h : decode t (b0 :: rest) = .ok (i, rest')) :
    ∃ row, rowOfClass t (opcodeClass b0) = some row ∧
      (row.mnemonic.shape = .format1 i ∨
        (∃ mk hi lo, row.mnemonic.shape = .format2 mk ∧ i = mk hi lo) ∨
        ∃ mk, row.mnemonic.shape = .format34 mk ∧ decodeLong mk b0 rest = .ok (i, rest')) := by
  cases hr : rowOfClass t (opcodeClass b0) with
  | none => cases (decode_of_noRow hr).symm.trans h
  | some row =>
    refine ⟨row, rfl, ?_⟩
    cases hs : row.mnemonic.shape with
    | format1 j =>
      cases (decode_of_format1 hr hs).symm.trans h
      exact .inl rfl
    | format2 mk =>
      cases rest with
      | nil => cases (decode_of_format2_nil hr hs).symm.trans h
      | cons b1 bs =>
        cases (decode_of_format2 b1 hr hs).symm.trans h
        exact .inr (.inl ⟨mk, _, _, rfl, rfl⟩)
    | format34 mk => exact .inr (.inr ⟨mk, rfl, (decode_of_format34 hr hs).symm.trans h⟩)

/-! ### What each format builds -/

theorem Mnemonic.spec_of_format1 {k : Mnemonic} (hs : k.shape = .format1 i) :
    i.mnemonic = k ∧ i.operands = .none := by
  have hk := k.shape_spec
  rwa [hs] at hk

theorem Mnemonic.spec_of_format2 {k : Mnemonic} {mk : BitVec 4 → BitVec 4 → Instr} (hs : k.shape = .format2 mk)
    (hi lo : BitVec 4) : (mk hi lo).mnemonic = k ∧
      (mk hi lo).operands = .nibbles hi (if k = .clear ∨ k = .tixr then 0#4 else lo) := by
  have hk := k.shape_spec
  rw [hs] at hk
  exact hk hi lo

theorem Mnemonic.spec_of_format34 {k : Mnemonic} {mk : Addressing → Instr} (hs : k.shape = .format34 mk)
    (m : Addressing) : (mk m).mnemonic = k ∧ (mk m).operands = .addressing m := by
  have hk := k.shape_spec
  rw [hs] at hk
  exact hk m

end Sys2Proof

namespace Sys2Proof.Machine

/-! ### What the class alone fixes -/

section

variable {t : OpcodeTable} {b0 b0' : Byte} {rest rest' : List Byte} {row : OpcodeRow} {i : Instr}

/-- The row gives the mnemonic, and the operands are those of its format (R122). -/
theorem decode_ok_row (hr : rowOfClass t (opcodeClass b0) = some row) (h : decode t (b0 :: rest) = .ok (i, rest')) :
    i.mnemonic = row.mnemonic ∧ fits row.mnemonic.shape i.operands = true := by
  obtain ⟨_, hr', hform⟩ := decode_ok_cases h
  cases hr.symm.trans hr'
  obtain hs | ⟨mk, hi, lo, hs, rfl⟩ | ⟨mk, hs, hl⟩ := hform
  · obtain ⟨hm, ho⟩ := Mnemonic.spec_of_format1 hs
    exact ⟨hm, by rw [hs, ho]; rfl⟩
  · obtain ⟨hm, ho⟩ := Mnemonic.spec_of_format2 hs hi lo
    exact ⟨hm, by rw [hs, ho]; rfl⟩
  · obtain ⟨m, rfl, -⟩ := decodeLong_ok hl
    obtain ⟨hm, ho⟩ := Mnemonic.spec_of_format34 hs m
    exact ⟨hm, by rw [hs, ho]; rfl⟩

/-- A row of format 1 or 2 uses no bit of byte0 but the class (R122). -/
theorem decode_eq_of_opcodeClass_eq (hc : opcodeClass b0 = opcodeClass b0')
    (hr : rowOfClass t (opcodeClass b0) = some row) (hl : isLong row.mnemonic.shape = false) :
    decode t (b0 :: rest) = decode t (b0' :: rest) := by
  have hr' : rowOfClass t (opcodeClass b0') = some row := hc ▸ hr
  cases hs : row.mnemonic.shape with
  | format1 i => rw [decode_of_format1 hr hs, decode_of_format1 hr' hs]
  | format2 mk =>
    cases rest with
    | nil => rw [decode_of_format2_nil hr hs, decode_of_format2_nil hr' hs]
    | cons b1 bs => rw [decode_of_format2 b1 hr hs, decode_of_format2 b1 hr' hs]
  | format34 mk =>
    rw [hs] at hl
    cases hl

/-- An instruction of format 3 or 4 uses n and i of byte0 besides the class, and only as its flags n and i (R122). -/
theorem decode_addressing_of_opcodeClass_eq {m : Addressing} (hc : opcodeClass b0 = opcodeClass b0')
    (h : decode t (b0 :: rest) = .ok (i, rest')) (ho : i.operands = .addressing m) :
    ∃ i', decode t (b0' :: rest) = .ok (i', rest') ∧ i'.mnemonic = i.mnemonic ∧
      i'.operands = .addressing { m with n := b0'.getLsbD 1, i := b0'.getLsbD 0 } := by
  obtain ⟨row, hr, hform⟩ := decode_ok_cases h
  obtain hs | ⟨mk, hi, lo, hs, rfl⟩ | ⟨mk, hs, hl⟩ := hform
  · cases (Mnemonic.spec_of_format1 hs).2.symm.trans ho
  · cases (Mnemonic.spec_of_format2 hs hi lo).2.symm.trans ho
  · obtain ⟨m', rfl, hb⟩ := decodeLong_ok hl
    obtain ⟨hm, ho'⟩ := Mnemonic.spec_of_format34 hs m'
    cases ho'.symm.trans ho
    obtain ⟨hmb, hob⟩ := Mnemonic.spec_of_format34 hs { m with n := b0'.getLsbD 1, i := b0'.getLsbD 0 }
    exact ⟨_, (decode_of_format34 (hc ▸ hr) hs).trans (hb b0'), hmb.trans hm.symm, hob⟩

end

/-! ### A step whose fetch or decode fails -/

section

variable {s : State}

/-- The fetch reaches the byte at a PC in memory (R121). -/
theorem fetchWindow_cons (h : 0 ≤ s.pc.toInt ∧ s.pc.toInt < s.memBytes) :
    fetchWindow s = s.mem.read s.pc.toInt.toNat :: fetchBytes s.memBytes s.mem 3 (s.pc.toInt + 1) :=
  fetchBytes_cons 3 h

/-- The fetch reaches no byte from a PC outside memory (R121). -/
theorem fetchWindow_nil (h : ¬(0 ≤ s.pc.toInt ∧ s.pc.toInt < s.memBytes)) : fetchWindow s = [] :=
  fetchBytes_nil maxLength h

theorem isHalted_iff : isHalted s = true ↔ ∃ r, s.engine = .halted r := by
  cases h : s.engine <;> simp [isHalted, h]

/-- Where the bytes at PC do not decode, the step halts and changes nothing else (R284, R291). -/
theorem step_of_decode_error {e : DecodeError} (h : isHalted s = false)
    (hd : decode s.config.opcodes (fetchWindow s) = .error e) : step s = .next (haltedAt s (decodeHalt e)) := by
  obtain ⟨r, hr, -⟩ | ⟨-, i, rest, hi, -⟩ | ⟨-, e', he, hs⟩ := step_cases s
  · cases h.symm.trans (isHalted_iff.mpr ⟨r, hr⟩)
  · cases hd.symm.trans hi
  · cases hd.symm.trans he
    exact hs

end

/-- Settles O5: the step meets a byte without a row at PC, and the rest is what the decoder takes from byte0. -/
theorem opcodeClassLookup : Obligations.OpcodeClassLookup := by
  refine ⟨fun s hh h0 h1 hr => ?_, fun _ _ _ => decode_of_noRow, fun _ _ _ _ _ _ => decode_ok_row,
    fun _ _ _ _ _ => decode_eq_of_opcodeClass_eq, fun _ _ _ _ _ _ _ => decode_addressing_of_opcodeClass_eq⟩
  have hd : decode s.config.opcodes (fetchWindow s) = .error .unimplementedOpcode := by
    rw [fetchWindow_cons ⟨h0, h1⟩]
    exact decode_of_noRow hr
  exact step_of_decode_error hh hd

/-- Settles O6: no byte is fetched, so the decoder, given none, is truncated before it looks up a class. -/
theorem fetchOutsideMemoryHalts : Obligations.FetchOutsideMemoryHalts := by
  intro s hh hpc
  have hd : decode s.config.opcodes (fetchWindow s) = .error .truncated := by
    rw [fetchWindow_nil hpc]
    rfl
  exact step_of_decode_error hh hd

/-! ### The bitwise operations -/

/-- Settles O26: `aluAnd` and `aluOr` are the bit-vector operations, which act bit by bit. -/
theorem bitwiseOnAllBits : Obligations.BitwiseOnAllBits :=
  fun _ _ _ _ => ⟨BitVec.getLsbD_and, BitVec.getLsbD_or⟩

/-! ### The base of the target -/

section

variable {s : State} {m : Addressing} {d : Int}

/-- With a displacement the instruction is of format 3 (R80). -/
theorem length_of_disp (h : m.field = .disp d) : m.length = 3 := by
  simp only [Addressing.length, h]

/-- In format 3 the base is PC if p = 1, else B if b = 1, else nothing (R131). -/
theorem baseAddress_of_disp (h : m.field = .disp d) :
    baseAddress s m = if m.p then s.pc.toInt + d else if m.b then s.b.toInt + d else d := by
  simp only [baseAddress, h]

end

/-- Settles O31: the order of the choice is that of `baseAddress_of_disp`, with PC advanced by 3. -/
theorem formatThreeBase : Obligations.FormatThreeBase := by
  intro s m d hf
  rw [baseAddress_of_disp hf, length_of_disp hf, advance_pc, advance_b]
  refine ⟨fun hp => ?_, fun hp hb => ?_, fun hp hb => ?_⟩
  · rw [if_pos hp]
  · simp [hp, hb]
  · simp [hp, hb]

end Sys2Proof.Machine

/-! PROOF. RSUB, the return of 41_rsub.md: its next state as one equation, and what that state keeps. -/

namespace Sys2Proof.Machine

/-- RSUB always completes: PC takes L, and only whether L is 0 decides how the engine goes on (R171, R172). -/
theorem exec_rsub (s : State) :
    exec .rsub s = .next ((s.setPc s.l).setEngine (if s.l = 0#32 then .halted .returned else .running)) := by
  change execRsub s = _
  unfold execRsub
  split
  · rfl
  · rfl

/-- RSUB reads no memory: exchanging the memory beforehand or afterwards is the same. -/
theorem exec_rsub_setMem (s : State) (m : Memory) :
    exec .rsub (s.setMem m) = mapNext (·.setMem m) (exec .rsub s) := by
  rw [exec_rsub, exec_rsub]
  rfl

/-- A change of PC and of the engine alone keeps every other register, the request and the parameters. -/
theorem keeps_setPc_setEngine (s : State) (v : S32) (e : Engine) : Keeps [] s ((s.setPc v).setEngine e) := by
  simp [Keeps]

/-- Settles O45: RSUB's next state differs from the one before in PC and the engine only, and both are set from L. -/
theorem rsubTouchesOnlyPc : Obligations.RsubTouchesOnlyPc := by
  refine ⟨exec_rsub_setMem, fun s t h => ?_⟩
  cases (exec_rsub s).symm.trans h
  exact keeps_setPc_setEngine s s.l _

end Sys2Proof.Machine

/-! PROOF. The decoder against the encoder (30_encoding.md): each undoes the other up to the ignored bits. -/

namespace Sys2Proof

variable {t : OpcodeTable} {i : Instr} {b0 : Byte} {rest rest' : List Byte} {row : OpcodeRow}

/-! ### The encoder by format -/

theorem encode_of_none (h : i.operands = .none) : encode t i = [opcodeOf t i.mnemonic] := by
  simp only [encode, h]

theorem encode_of_nibbles {hi lo : BitVec 4} (h : i.operands = .nibbles hi lo) :
    encode t i = [opcodeOf t i.mnemonic, hi ++ lo] := by
  simp only [encode, h]

theorem encode_of_addressing {m : Addressing} (h : i.operands = .addressing m) :
    encode t i = (opcodeClass (opcodeOf t i.mnemonic) ++ BitVec.ofBool m.n ++ BitVec.ofBool m.i) :: encodeField m := by
  simp only [encode, h]

theorem wellFormed_of_addressing {m : Addressing} (h : i.operands = .addressing m) :
    WellFormed i ↔ m.field.wellFormed = true := by
  simp only [WellFormed, Instr.wellFormed, h]

theorem AddrField.wellFormed_disp {d : Int} : (AddrField.disp d).wellFormed = true ↔ -2048 ≤ d ∧ d ≤ 2047 := by
  simp [AddrField.wellFormed]

theorem AddrField.wellFormed_addr {a : Nat} : (AddrField.addr a).wellFormed = true ↔ a ≤ 1048575 := by
  simp [AddrField.wellFormed]

/-! ### Formats 3 and 4 after byte0 -/

/-- The flags n and i of byte0 and x, b and p of byte1, with an address field (R82, R83). -/
def decodedFlags (b0 b1 : Byte) (f : AddrField) : Addressing :=
  ⟨b0.getLsbD 1, b0.getLsbD 0, b1.getLsbD 7, b1.getLsbD 6, b1.getLsbD 5, f⟩

/-- With e = 0 the two bytes after byte0 are the whole field (R82, R88). -/
theorem decodeLong_of_e_false (mk : Addressing → Instr) {b1 : Byte} (b2 : Byte) (he : b1.getLsbD 4 = false) :
    decodeLong mk b0 (b1 :: b2 :: rest) =
      .ok (mk (decodedFlags b0 b1 (.disp (sext12 (b1.extractLsb' 0 4 ++ b2)))), rest) := by
  simp only [decodeLong, he]
  rfl

/-- With e = 1 a byte3 belongs to the field (R83, R88). -/
theorem decodeLong_of_e_true (mk : Addressing → Instr) {b1 : Byte} (b2 b3 : Byte) (he : b1.getLsbD 4 = true) :
    decodeLong mk b0 (b1 :: b2 :: b3 :: rest) =
      .ok (mk (decodedFlags b0 b1 (.addr (b1.extractLsb' 0 4 ++ b2 ++ b3).toNat)), rest) := by
  simp only [decodeLong, he]
  rfl

/-- With e = 1 and no byte3 the bytes are truncated (R124). -/
theorem decodeLong_of_no_byte3 (mk : Addressing → Instr) {b1 : Byte} (b2 : Byte) (he : b1.getLsbD 4 = true) :
    decodeLong mk b0 [b1, b2] = .error .truncated := by
  simp only [decodeLong, he]
  rfl

theorem encodeField_of_disp {m : Addressing} {d : Int} (h : m.field = .disp d) :
    encodeField m =
      [encodeByte1 m false ((BitVec.ofInt 12 d).extractLsb' 8 4), (BitVec.ofInt 12 d).extractLsb' 0 8] := by
  simp only [encodeField, h]

theorem encodeField_of_addr {m : Addressing} {a : Nat} (h : m.field = .addr a) :
    encodeField m = [encodeByte1 m true ((BitVec.ofNat 20 a).extractLsb' 16 4), (BitVec.ofNat 20 a).extractLsb' 8 8,
      (BitVec.ofNat 20 a).extractLsb' 0 8] := by
  simp only [encodeField, h]

/-- Fewer than two bytes after byte0 are truncated in formats 3 and 4 (R124). -/
theorem decodeLong_of_short (mk : Addressing → Instr) {bs : List Byte} (h : bs.length < 2) :
    decodeLong mk b0 bs = .error .truncated := by
  match bs with
  | [] | [_] => rfl
  | _ :: _ :: _ =>
    simp only [List.length_cons] at h
    omega

/-- After the class lookup formats 3 and 4 fail only for want of bytes (R122, R124). -/
theorem decodeLong_error {mk : Addressing → Instr} {e : DecodeError} (h : decodeLong mk b0 rest = .error e) :
    e = .truncated := by
  match rest with
  | [] | [_] => exact (Except.error.inj h).symm
  | b1 :: b2 :: bs =>
    cases he : b1.getLsbD 4 with
    | false => cases (decodeLong_of_e_false mk b2 he).symm.trans h
    | true =>
      cases bs with
      | nil => exact Except.error.inj (h.symm.trans (decodeLong_of_no_byte3 mk b2 he))
      | cons b3 bs => cases (decodeLong_of_e_true mk b2 b3 he).symm.trans h

/-- The decoder reads the encoder's field back, with n and i from byte0 (R82, R83, R88). -/
theorem decodeLong_encodeField (mk : Addressing → Instr) {m : Addressing} (hn : b0.getLsbD 1 = m.n)
    (hi : b0.getLsbD 0 = m.i) (hw : m.field.wellFormed = true) :
    decodeLong mk b0 (encodeField m ++ rest) = .ok (mk m, rest) := by
  obtain ⟨n, i, x, b, p, f⟩ := m
  subst hn hi
  cases f with
  | disp d =>
    obtain ⟨h1, h2⟩ := AddrField.wellFormed_disp.mp hw
    rw [encodeField_of_disp rfl, List.cons_append, List.singleton_append, decodeLong_of_e_false mk _ (by simp)]
    simp [decodedFlags, sext12_parts h1 h2]
  | addr a =>
    rw [encodeField_of_addr rfl, List.cons_append, List.cons_append, List.singleton_append,
      decodeLong_of_e_true mk _ _ (by simp)]
    simp [decodedFlags, addr20_parts (AddrField.wellFormed_addr.mp hw)]

/-- byte1 is put together again from its flags and its low nibble (R82, R83). -/
theorem encodeByte1_decodedFlags (b0 b1 : Byte) (f : AddrField) :
    encodeByte1 (decodedFlags b0 b1 f) (b1.getLsbD 4) (b1.extractLsb' 0 4) = b1 := by
  simp only [encodeByte1, decodedFlags]
  revert b1
  decide

/-- What formats 3 and 4 accept is byte0's n and i and the encoder's bytes of a field in its range (R82, R83, R88). -/
theorem decodeLong_ok_encodeField {mk : Addressing → Instr} (h : decodeLong mk b0 rest = .ok (i, rest')) :
    ∃ m : Addressing, i = mk m ∧ m.n = b0.getLsbD 1 ∧ m.i = b0.getLsbD 0 ∧ m.field.wellFormed = true ∧
      rest = encodeField m ++ rest' := by
  match rest with
  | [] => cases h
  | [_] => cases h
  | b1 :: b2 :: bs =>
    cases he : b1.getLsbD 4 with
    | false =>
      cases (decodeLong_of_e_false mk b2 he).symm.trans h
      refine ⟨_, rfl, rfl, rfl, AddrField.wellFormed_disp.mpr (sext12_range _), ?_⟩
      rw [encodeField_of_disp rfl, ofInt_sext12, field12_hi, field12_lo, ← he, encodeByte1_decodedFlags]
      rfl
    | true =>
      cases bs with
      | nil => cases (decodeLong_of_no_byte3 mk b2 he).symm.trans h
      | cons b3 bs =>
        cases (decodeLong_of_e_true mk b2 b3 he).symm.trans h
        have hlt := (b1.extractLsb' 0 4 ++ b2 ++ b3).isLt
        refine ⟨_, rfl, rfl, rfl, AddrField.wellFormed_addr.mpr (by omega), ?_⟩
        rw [encodeField_of_addr rfl, BitVec.ofNat_toNat, BitVec.setWidth_eq, field20_hi, field20_mid, field20_lo, ← he,
          encodeByte1_decodedFlags]
        rfl

/-! ### Decoding an encoding -/

theorem Instr.shape_of_none (h : i.operands = .none) : i.mnemonic.shape = .format1 i := by
  have hs := i.mnemonic_shape
  rw [h] at hs
  cases hk : i.mnemonic.shape <;> simp_all

theorem Instr.shape_of_nibbles {hi lo : BitVec 4} (h : i.operands = .nibbles hi lo) :
    ∃ mk, i.mnemonic.shape = .format2 mk ∧ mk hi lo = i := by
  have hs := i.mnemonic_shape
  rw [h] at hs
  cases hk : i.mnemonic.shape <;> simp_all

theorem Instr.shape_of_addressing {m : Addressing} (h : i.operands = .addressing m) :
    ∃ mk, i.mnemonic.shape = .format34 mk ∧ mk m = i := by
  have hs := i.mnemonic_shape
  rw [h] at hs
  cases hk : i.mnemonic.shape <;> simp_all

/-- The decoder finds the mnemonic's row by byte0, and its format reads the operands back (R101). -/
theorem decode_encode (hw : t.wf = true) (hi : WellFormed i) (rest : List Byte) :
    decode t (encode t i ++ rest) = .ok (i, rest) := by
  have hr := rowOfClass_opcodeOf hw i.mnemonic
  cases ho : i.operands with
  | none =>
    rw [encode_of_none ho]
    exact decode_of_format1 hr (Instr.shape_of_none ho)
  | nibbles r1 r2 =>
    obtain ⟨mk, hs, hmk⟩ := Instr.shape_of_nibbles ho
    rw [encode_of_nibbles ho, List.cons_append, List.singleton_append, decode_of_format2 _ hr hs, nibbles_hi,
      nibbles_lo, hmk]
  | addressing m =>
    obtain ⟨mk, hs, hmk⟩ := Instr.shape_of_addressing ho
    rw [encode_of_addressing ho, List.cons_append, decode_of_format34 (by rw [opcodeClass_append]; exact hr) hs,
      decodeLong_encodeField mk (by simp) (by simp) ((wellFormed_of_addressing ho).mp hi), hmk]

/-! ### Encoding what was decoded -/

/-- byte0 of formats 3 and 4 is put together again from its class and flags (R82, R83). -/
theorem byte0_parts (b0 : Byte) :
    opcodeClass b0 ++ BitVec.ofBool (b0.getLsbD 1) ++ BitVec.ofBool (b0.getLsbD 0) = b0 := by
  revert b0
  decide

theorem byte1_parts (b1 : Byte) : b1.extractLsb' 4 4 ++ b1.extractLsb' 0 4 = b1 &&& 0xFF#8 := by
  revert b1
  decide

theorem byte1_high_part (b1 : Byte) : b1.extractLsb' 4 4 ++ 0#4 = b1 &&& 0xF0#8 := by
  revert b1
  decide

/-- The opcode byte of the row found by byte0's class is byte0 with its low two bits 0 (R85). -/
theorem opcodeOf_rowOfClass (hw : t.wf = true) (hr : rowOfClass t (opcodeClass b0) = some row) :
    opcodeOf t row.mnemonic = b0 &&& 0xFC#8 := by
  obtain ⟨hmem, hc⟩ := rowOfClass_some hr
  rw [opcodeOf_mem hw hmem, hc, opcodeByte_opcodeClass]

/-- A format-3/4 instruction is byte0 and its field (R80). -/
theorem length_encodeField (m : Addressing) : (encodeField m).length + 1 = m.length := by
  cases hf : m.field <;> simp [encodeField, Addressing.length, hf]

/-- A mask of ones drops nothing. -/
theorem zipWith_and_ones (bs : List Byte) : List.zipWith (· &&& ·) bs (List.replicate bs.length 0xFF#8) = bs := by
  induction bs with
  | nil => rfl
  | cons b bs ih =>
    have hb : b &&& 0xFF#8 = b := BitVec.and_allOnes
    simp [List.replicate_succ, ih, hb]

end Sys2Proof

namespace Sys2Proof.Machine

variable {t : OpcodeTable} {i : Instr} {b0 : Byte} {rest rest' : List Byte} {row : OpcodeRow}

/-- Of the bytes of format 2 the low two bits of byte0 are ignored, and of byte1 the low nibble if r2 is unused (R84,
R89). -/
theorem meaningfulBits_of_nibbles {r1 r2 : BitVec 4} (h : i.operands = .nibbles r1 r2) :
    meaningfulBits i = [0xFC#8, if i.mnemonic = .clear ∨ i.mnemonic = .tixr then 0xF0#8 else 0xFF#8] := by
  simp only [meaningfulBits, h]
  cases i.mnemonic <;> rfl

/-- What the decoder accepts is the bytes of its instruction, but for the ignored bits (R80 to R84, R89, R90). -/
theorem decode_ok_encode (hw : t.wf = true) (h : decode t (b0 :: rest) = .ok (i, rest')) :
    WellFormed i ∧ ∃ used, b0 :: rest = used ++ rest' ∧ used.length = i.length ∧
      encode t i = List.zipWith (· &&& ·) used (meaningfulBits i) := by
  cases hr : rowOfClass t (opcodeClass b0) with
  | none => cases (decode_of_noRow hr).symm.trans h
  | some row =>
    have hop := opcodeOf_rowOfClass hw hr
    cases hs : row.mnemonic.shape with
    | format1 j =>
      cases (decode_of_format1 hr hs).symm.trans h
      obtain ⟨hm, ho⟩ := Mnemonic.spec_of_format1 hs
      refine ⟨by simp [WellFormed, Instr.wellFormed, ho], [b0], rfl, by simp [Instr.length, ho], ?_⟩
      rw [encode_of_none ho, hm, hop]
      simp [meaningfulBits, ho]
    | format2 mk =>
      cases rest with
      | nil => cases (decode_of_format2_nil hr hs).symm.trans h
      | cons b1 bs =>
        cases (decode_of_format2 b1 hr hs).symm.trans h
        obtain ⟨hm, ho⟩ := Mnemonic.spec_of_format2 hs (b1.extractLsb' 4 4) (b1.extractLsb' 0 4)
        refine ⟨by simp [WellFormed, Instr.wellFormed, ho], [b0, b1], rfl, by simp [Instr.length, ho], ?_⟩
        rw [encode_of_nibbles ho, meaningfulBits_of_nibbles ho, hm, hop]
        split
        · rw [byte1_high_part]
          rfl
        · rw [byte1_parts]
          rfl
    | format34 mk =>
      obtain ⟨m, rfl, hn, hi, hf, rfl⟩ := decodeLong_ok_encodeField ((decode_of_format34 hr hs).symm.trans h)
      obtain ⟨hm, ho⟩ := Mnemonic.spec_of_format34 hs m
      have hlen := length_encodeField m
      have hones := zipWith_and_ones (b0 :: encodeField m)
      refine ⟨(wellFormed_of_addressing ho).mpr hf, b0 :: encodeField m, rfl, by simp [Instr.length, ho, hlen], ?_⟩
      rw [encode_of_addressing ho, hm, hop, hn, hi, ← opcodeByte_opcodeClass, opcodeClass_opcodeByte, byte0_parts]
      simp only [meaningfulBits, ho]
      rw [← hlen]
      exact hones.symm

/-- The opcode is unimplemented only where no row has its class: a row reads on or is truncated (R90, R122). -/
theorem decode_unimplementedOpcode_iff :
    decode t (b0 :: rest) = .error .unimplementedOpcode ↔ rowOfClass t (opcodeClass b0) = none := by
  refine ⟨fun h => ?_, decode_of_noRow⟩
  cases hr : rowOfClass t (opcodeClass b0) with
  | none => rfl
  | some row =>
    exfalso
    cases hs : row.mnemonic.shape with
    | format1 j => cases (decode_of_format1 hr hs).symm.trans h
    | format2 mk =>
      cases rest with
      | nil => cases (decode_of_format2_nil hr hs).symm.trans h
      | cons b1 bs => cases (decode_of_format2 b1 hr hs).symm.trans h
    | format34 mk => cases decodeLong_error ((decode_of_format34 hr hs).symm.trans h)

/-- The classes that no row of the default table has (R87). -/
theorem default_unlisted_iff (c : BitVec 6) :
    (∀ row ∈ Config.default.opcodes, row.opcodeClass ≠ c) ↔
      c ∈ [0x16#6, 0x17#6, 0x18#6, 0x19#6, 0x1C#6, 0x20#6, 0x22#6, 0x23#6, 0x2C#6, 0x2F#6] ∨ 0x30#6 ≤ c := by
  revert c
  decide

/-- Settles O2, by `decode_encode`: byte0 finds the mnemonic's row, whose format reads the operands back. -/
theorem decodeEncodeRoundTrip : Obligations.DecodeEncodeRoundTrip := fun _ _ rest hw hi => decode_encode hw hi rest

/-- Settles O3, by the format of the row that byte0's class finds (`decode_ok_encode`). -/
theorem decodeDropsOnlyIgnoredBits : Obligations.DecodeDropsOnlyIgnoredBits := by
  intro t bytes rest i hw h
  cases bytes with
  | nil => cases h
  | cons b0 bs => exact decode_ok_encode hw h

/-- Settles O4: the refusal is the lookup's alone, and the default table's 64 classes are checked one by one. -/
theorem unlistedClassesDecodeToNothing : Obligations.UnlistedClassesDecodeToNothing :=
  have hiff (t : OpcodeTable) (b0 : Byte) (rest : List Byte) :
      decode t (b0 :: rest) = .error .unimplementedOpcode ↔ ∀ row ∈ t, row.opcodeClass ≠ opcodeClass b0 :=
    decode_unimplementedOpcode_iff.trans rowOfClass_none
  ⟨hiff, fun b0 rest => (hiff _ b0 rest).trans (default_unlisted_iff _)⟩

/-- Settles O1: each of the seven words is run through the decoder with the default table. -/
theorem specEncodingsDecode : Obligations.SpecEncodingsDecode := by
  unfold Obligations.SpecEncodingsDecode
  decide

end Sys2Proof.Machine

/-! PROOF. What every instruction can do: which registers it may change, where it leaves PC, and how its step ends. -/

namespace Sys2Proof.Machine

variable {s t u : State} {i : Instr} {m : Addressing} {r1 r2 : BitVec 4} {P : State → Prop}

/-! ### The writers of each register -/

/-- The registers, PC aside, that the rules of 10_state.md let a mnemonic change of itself (R23). -/
def writtenByMnemonic : Mnemonic → List Reg
  | .lda | .ldch | .add | .sub | .mul | .div | .and | .or => [.a]
  | .ldx => [.x]
  | .ldl | .jsub => [.l]
  | .ldb => [.b]
  | .lds => [.s]
  | .ldt => [.t]
  | .comp | .compr => [.sw]
  | .tix | .tixr => [.x, .sw]
  | .rsub | .addr | .subr | .mulr | .divr | .rmo | .clear | .shiftl | .shiftr => []
  | .sta | .stx | .stl | .stb | .sts | .stt | .stch | .j | .jeq | .jgt | .jlt => []

/-- The register a format-2 instruction names as its destination, as a list. -/
def writtenByNumber (i : Instr) : List Reg :=
  match format2Destination i with
  | some k => namedReg k
  | none   => []

theorem mem_namedReg {r : Reg} {k : BitVec 4} : r ∈ namedReg k ↔ lookup k = .ok r := by
  unfold namedReg
  cases lookup k <;> simp [eq_comm]

theorem mem_writtenByNumber {r : Reg} : r ∈ writtenByNumber i ↔ WritesByNumber i r := by
  unfold writtenByNumber WritesByNumber
  cases format2Destination i <;> simp [mem_namedReg]

/-- The registers, PC aside, that an instruction may change. -/
def written (i : Instr) : List Reg := writtenByMnemonic i.mnemonic ++ writtenByNumber i

/-- What is kept outside a list is kept outside a longer one. -/
theorem Keeps.mono {w w' : List Reg} (h : Keeps w s t) (hw : w ⊆ w') : Keeps w' s t := by
  obtain ⟨ha, hx, hl, hb, hs, ht, hsw, hc⟩ := h
  exact ⟨fun h => ha (h <| hw ·), fun h => hx (h <| hw ·), fun h => hl (h <| hw ·), fun h => hb (h <| hw ·),
    fun h => hs (h <| hw ·), fun h => ht (h <| hw ·), fun h => hsw (h <| hw ·), hc⟩

/-- A register write keeps every other register. -/
theorem keeps_regWrite (s : State) (n : Nat) (r : Reg) (v : S32) : Keeps [r] s (regWrite (advance s n) r v) := by
  cases r <;> simp [Keeps, regWrite]

theorem regWrite_pc {r : Reg} (v : S32) (h : r ≠ .pc) : (regWrite s r v).pc = s.pc := by
  cases r with
  | pc => exact absurd rfl h
  | a | x | l | b | s | t | sw => rfl

/-! ### The staged state of an instruction that completes -/

/-- The instructions that set PC to something else than the next instruction (R128). -/
def jumping : List Mnemonic := [.rsub, .j, .jeq, .jgt, .jlt, .jsub]

/-- What holds of the writes an instruction stages: it changes only its registers, leaves memory in canonical form and,
if it is no jump and does not name PC, has PC at the next instruction. -/
structure Staged (i : Instr) (s u : State) : Prop where
  keeps : Keeps (written i) s u
  memWf : s.mem.wf s.memBytes = true → u.mem.wf s.memBytes = true
  pc    : i.mnemonic ∉ jumping → ¬WritesByNumber i .pc → u.pc = s.pc + BitVec.ofNat 32 i.length

/-- A cycle that completes with a staged state of which `P` holds, or raises; Returned is no raise (R284, R285). -/
def CycleEnd.Ends (P : State → Prop) : CycleEnd → Prop
  | .completes u     => P u
  | .stopsReturned _ => False
  | .raises r        => r ≠ .returned

/-- A step that completes with a staged state of which `P` holds, or halts. -/
def EndsStep (P : State → Prop) (s t : State) : Prop :=
  (∃ u, P u ∧ t = u.setEngine .running) ∨ ∃ r, r ≠ .returned ∧ t = haltedAt s r

theorem commit_ends {c : CycleEnd} (h : commit s c = .next t) (hc : c.Ends P) : EndsStep P s t := by
  obtain ⟨u, rfl, rfl⟩ | ⟨u, rfl, rfl⟩ | ⟨r, rfl, rfl⟩ := commit_cases c h
  · exact .inl ⟨u, hc, rfl⟩
  · exact hc.elim
  · exact .inr ⟨r, hc, rfl⟩

theorem withOperand_ends {f : State → S32 → CycleEnd} (h : withOperand m s f = .next t)
    (hf : ∀ v, (f (advance s m.length) v).Ends P) : EndsStep P s t := by
  obtain ⟨v, -, he⟩ | ⟨-, he⟩ := withOperand_cases m s f
  · exact commit_ends (he ▸ h) (hf v)
  · cases he.symm.trans h
    exact .inr ⟨_, by decide, rfl⟩

theorem withTarget_ends {f : State → S32 → CycleEnd} (h : withTarget m s f = .next t)
    (hf : ∀ v, (f (advance s m.length) v).Ends P) : EndsStep P s t :=
  commit_ends ((withTarget_eq m s f).symm.trans h) (hf _)

theorem withReg_ends {f : State → Reg → CycleEnd} (h : withReg r1 s f = .next t)
    (hf : ∀ p, lookup r1 = .ok p → (f (advance s 2) p).Ends P) : EndsStep P s t := by
  obtain ⟨p, hp, he⟩ | ⟨-, he⟩ := withReg_cases r1 s f
  · exact commit_ends (he ▸ h) (hf p hp)
  · cases he.symm.trans h
    exact .inr ⟨_, by decide, rfl⟩

theorem withRegs_ends {f : State → Reg → Reg → CycleEnd} (h : withRegs r1 r2 s f = .next t)
    (hf : ∀ p q, lookup r2 = .ok q → (f (advance s 2) p q).Ends P) : EndsStep P s t := by
  obtain ⟨p, q, -, hq, he⟩ | ⟨-, he⟩ := withRegs_cases r1 r2 s f
  · exact commit_ends (he ▸ h) (hf p q hq)
  · cases he.symm.trans h
    exact .inr ⟨_, by decide, rfl⟩

theorem storeWord_ends {v : State → S32} (h : storeWord m s v = .next t)
    (hP : ∀ mem : Memory, (s.mem.wf s.memBytes = true → mem.wf s.memBytes = true) →
      P ((advance s m.length).setMem mem)) : EndsStep P s t := by
  obtain ⟨hr, he⟩ | ⟨-, he⟩ := storeWord_cases m s v
  · cases he.symm.trans h
    exact .inl ⟨_, hP _ fun hm => Memory.writeWord_wf _ hm (by omega), rfl⟩
  · cases he.symm.trans h
    exact .inr ⟨_, by decide, rfl⟩

/-- A division ends with its quotient written, or raises DivisionByZero (R183, R243). -/
theorem ends_div (v : S32) (hu : P u) :
    (if v = 0#32 then CycleEnd.raises .divisionByZero else .completes u).Ends P := by
  split
  · exact fun h => by cases h
  · exact hu

/-- A format-2 instruction stages a write to the register its destination number names. -/
theorem staged_regWrite {k : BitVec 4} {q : Reg} (v : S32) (hd : format2Destination i = some k) (hk : lookup k = .ok q)
    (hl : i.length = 2) : Staged i s (regWrite (advance s 2) q v) := by
  have hq : WritesByNumber i q := ⟨k, hd, hk⟩
  refine ⟨(keeps_regWrite s 2 q v).mono ?_, fun hm => ?_, fun _ hpc => ?_⟩
  · simpa [written] using .inr (mem_writtenByNumber.mpr hq)
  · rwa [regWrite_mem]
  · rw [regWrite_pc v fun h => hpc (h ▸ hq), advance_pc, hl]

/-- A state at the next instruction that differs from the one before in registers the mnemonic may change. -/
theorem staged_of_registers (hk : Keeps (writtenByMnemonic i.mnemonic) s u) (hm : u.mem = s.mem)
    (hpc : u.pc = s.pc + BitVec.ofNat 32 i.length) : Staged i s u :=
  ⟨hk.mono (List.subset_append_left ..), fun h => hm ▸ h, fun _ _ => hpc⟩

/-- A jump stages any PC. -/
theorem staged_of_jump (hi : i.mnemonic ∈ jumping) (hk : Keeps (writtenByMnemonic i.mnemonic) s u)
    (hm : u.mem = s.mem) : Staged i s u :=
  ⟨hk.mono (List.subset_append_left ..), fun h => hm ▸ h, fun hj _ => absurd hi hj⟩

/-- Every instruction stops as RSUB with L = 0, or ends with what it staged, or halts (R281). -/
theorem exec_cases (h : exec i s = .next t) :
    (i = .rsub ∧ s.l = 0#32 ∧ t = { s with pc := 0#32, engine := .halted .returned }) ∨
      EndsStep (Staged i s) s t := by
  unfold exec at h
  cases i with
  | rsub =>
    cases (exec_rsub s).symm.trans h
    by_cases hl : s.l = 0#32
    · exact .inl ⟨rfl, hl, by simp [hl, State.setPc, State.setEngine]⟩
    · rw [if_neg hl]
      exact .inr (.inl ⟨s.setPc s.l, staged_of_jump (by simp [jumping, Instr.mnemonic]) (by simp [Keeps]) rfl, rfl⟩)
  | addr | subr | mulr | rmo => exact .inr (withRegs_ends h fun _ _ hq => staged_regWrite _ rfl hq rfl)
  | divr => exact .inr (withRegs_ends h fun _ _ hq => ends_div _ (staged_regWrite _ rfl hq rfl))
  | compr =>
    exact .inr (withRegs_ends h fun _ _ _ =>
      staged_of_registers (by simp [Keeps, writtenByMnemonic, Instr.mnemonic]) rfl (advance_pc _))
  | clear | shiftl | shiftr => exact .inr (withReg_ends h fun _ hp => staged_regWrite _ rfl hp rfl)
  | tixr =>
    exact .inr (withReg_ends h fun _ _ =>
      staged_of_registers (by simp [Keeps, writtenByMnemonic, Instr.mnemonic]) rfl (advance_pc _))
  | lda | ldx | ldl | ldb | lds | ldt | add | sub | mul | and | or | comp | tix =>
    exact .inr (withOperand_ends h fun _ =>
      staged_of_registers (by simp [Keeps, writtenByMnemonic, Instr.mnemonic]) rfl (advance_pc _))
  | div =>
    exact .inr (withOperand_ends h fun v => ends_div v <|
      staged_of_registers (by simp [Keeps, writtenByMnemonic, Instr.mnemonic]) rfl (advance_pc _))
  | ldch =>
    exact .inr (withTarget_ends h fun _ =>
      staged_of_registers (by simp [Keeps, writtenByMnemonic, Instr.mnemonic]) rfl (advance_pc _))
  | sta | stx | stl | stb | sts | stt =>
    exact .inr (storeWord_ends h fun _ hm => ⟨by simp [Keeps], hm, fun _ _ => advance_pc _⟩)
  | stch =>
    exact .inr (withTarget_ends h fun _ => ⟨by simp [Keeps], byteWrite_wf _ _, fun _ _ => advance_pc _⟩)
  | j | jsub =>
    exact .inr (withTarget_ends h fun _ => staged_of_jump (by simp [jumping, Instr.mnemonic])
      (by simp [Keeps, writtenByMnemonic, Instr.mnemonic]) rfl)
  | jeq | jgt | jlt =>
    cases (jumpIf_eq ..).symm.trans h
    refine .inr (.inl ⟨_, ?_, rfl⟩)
    exact staged_of_jump (by simp [jumping, Instr.mnemonic]) (by simp [Keeps]) rfl

theorem commit_next (s : State) (c : CycleEnd) : ∃ t, commit s c = .next t := by
  cases c with
  | completes | stopsReturned | raises => exact ⟨_, rfl⟩

/-- Every instruction gives a next state: it ends in a commit, which for LDCH, STCH and the jumps completes (R281). -/
theorem exec_next (i : Instr) (s : State) : ∃ t, exec i s = .next t := by
  cases i with
  | ldch | stch | j | jeq | jgt | jlt | jsub => exact ⟨_, rfl⟩
  | _ => exact commit_next s _

/-- An instruction changes no register but PC and its own, nor the request or the parameters (R23). -/
theorem exec_keeps (h : exec i s = .next t) : Keeps (written i) s t := by
  obtain ⟨-, -, rfl⟩ | ⟨u, hu, rfl⟩ | ⟨r, -, rfl⟩ := exec_cases h
  · simp [Keeps]
  · exact hu.keeps
  · simp [Keeps, haltedAt]

/-! ### What every step keeps -/

/-- A step keeps the parameters and the cancellation request, which no instruction writes (R39, R292). -/
theorem step_keeps_config_cancel (h : step s = .next t) : t.config = s.config ∧ t.cancel = s.cancel := by
  obtain ⟨_, -, he⟩ | ⟨-, i, _, -, he⟩ | ⟨-, _, -, he⟩ := step_cases s
  · cases he.symm.trans h
    exact ⟨rfl, rfl⟩
  · obtain ⟨-, -, -, -, -, -, -, hcancel, hconfig⟩ := exec_keeps (he ▸ h)
    exact ⟨hconfig, hcancel⟩
  · cases he.symm.trans h
    exact ⟨rfl, rfl⟩

theorem decodeHalt_ne_returned (e : DecodeError) : decodeHalt e ≠ .returned := by cases e <;> decide

/-- An instruction keeps the canonical form of memory, and stops with Returned only with PC = L = 0 (R171, R173). -/
theorem exec_keeps_wf_and_returned (h : exec i s = .next t) (hm : s.mem.wf s.memBytes = true) :
    t.mem.wf s.memBytes = true ∧ (t.engine = .halted .returned → t.pc = 0#32 ∧ t.l = 0#32) := by
  obtain ⟨-, hl, rfl⟩ | ⟨u, hu, rfl⟩ | ⟨r, hr, rfl⟩ := exec_cases h
  · exact ⟨hm, fun _ => ⟨rfl, hl⟩⟩
  · exact ⟨hu.memWf hm, fun he => by cases he⟩
  · exact ⟨hm, fun he => absurd (Engine.halted.inj he) hr⟩

/-- Settles O13: staying Halted changes nothing, an instruction keeps each part, and a failing fetch halts with another
reason than Returned. -/
theorem stepKeepsInv : Obligations.StepKeepsInv := by
  intro s t ⟨ht, hm, hret⟩ h
  obtain ⟨hconfig, -⟩ := step_keeps_config_cancel h
  refine ⟨⟨by rwa [hconfig], ?_⟩, hconfig⟩
  have hsize : t.memBytes = s.memBytes := congrArg Config.memBytes hconfig
  rw [hsize]
  obtain ⟨_, -, he⟩ | ⟨-, i, _, -, he⟩ | ⟨-, e, -, he⟩ := step_cases s
  · cases he.symm.trans h
    exact ⟨hm, hret⟩
  · exact exec_keeps_wf_and_returned (he ▸ h) hm
  · cases he.symm.trans h
    exact ⟨hm, fun he' => absurd (Engine.halted.inj he') (decodeHalt_ne_returned e)⟩

end Sys2Proof.Machine

/-! PROOF. The ALU and the condition code (10_state.md, 40_datapath.md), words in memory (20_memory.md), and the target
and the operand of formats 3 and 4 (40_datapath.md). -/

namespace Sys2Proof

/-- Narrowing reduces to the one signed 32-bit value that is congruent modulo 2^32 (R10). -/
theorem toInt_wrap32 (n : Int) : (wrap32 n).toInt = n.bmod (2 ^ 32) := BitVec.toInt_ofInt n

end Sys2Proof

namespace Sys2Proof.Machine

/-! ### The ALU -/

/-- The quotient of the magnitudes with the sign of the product is the quotient truncated toward zero. -/
theorem sign_mul_sign_mul_div_eq_tdiv (a b : Int) : a.sign * b.sign * (a.natAbs / b.natAbs : Nat) = a.tdiv b := by
  rw [← Int.sign_mul_natAbs (a.tdiv b), Int.sign_tdiv, Int.natAbs_tdiv]
  split
  next h => simp [Nat.div_eq_of_lt h]
  next => rfl

/-- `truncDiv` is the signed bit-vector division (R153). -/
theorem truncDiv_eq (a b : S32) : truncDiv a b = a.sdiv b := by
  apply BitVec.eq_of_toInt_eq
  rw [truncDiv, sign_mul_sign_mul_div_eq_tdiv, toInt_wrap32, BitVec.toInt_sdiv]

/-- `shl` is the logical left shift, whatever the count (R155). -/
theorem aluShl_eq (v : S32) (c : Nat) : aluShl v c = v <<< c := by
  have hc : wrap32 (2 ^ c) = BitVec.twoPow 32 c := by
    rw [← Nat.cast_ofNat, ← Nat.cast_pow, wrap32_natCast]
    exact BitVec.eq_of_toNat_eq (by simp)
  rw [aluShl, wrap32_mul, wrap32_toInt, hc, BitVec.shiftLeft_eq_mul_twoPow]

/-- `sar` is the arithmetic right shift, whatever the count (R156). -/
theorem aluSar_eq (v : S32) (c : Nat) : aluSar v c = v.sshiftRight c := by
  have hc : (0 : Int) ≤ 2 ^ c := by positivity
  rw [aluSar, Int.fdiv_eq_ediv_of_nonneg _ hc, BitVec.sshiftRight, Int.shiftRight_eq_div_pow]
  push_cast
  rfl

/-- Settles O22: each primitive narrows the exact integer result. -/
theorem arithmeticWraps : Obligations.ArithmeticWraps := fun _ _ =>
  ⟨toInt_wrap32 _, toInt_wrap32 _, toInt_wrap32 _, toInt_wrap32 _⟩

/-- Settles O23, by `truncDiv_eq`: of all signed quotients only -2^31 / -1 does not fit. -/
theorem divisionTruncates : Obligations.DivisionTruncates := by
  refine ⟨fun a b _ h => ?_, by decide⟩
  rw [truncDiv_eq, BitVec.toInt_sdiv_of_ne_or_ne a b (not_and_or.mp h)]

/-- Settles O25, by `aluShl_eq` and `aluSar_eq`, which hold for every count. -/
theorem shiftsAreLogicalLeftArithmeticRight : Obligations.ShiftsAreLogicalLeftArithmeticRight :=
  fun v c _ _ => ⟨aluShl_eq v c, aluSar_eq v c⟩

/-! ### The condition code -/

/-- The comparison is by signed value: each code is given exactly where its relation holds (R150). -/
theorem compare32_iff (a b : S32) :
    (compare32 a b = .less ↔ a.toInt < b.toInt) ∧ (compare32 a b = .equal ↔ a.toInt = b.toInt) ∧
      (compare32 a b = .greater ↔ b.toInt < a.toInt) := by
  obtain h | h | h := lt_trichotomy a.toInt b.toInt
  · have hc : compare32 a b = .less := by rw [compare32, if_pos h]
    simp [hc, h, h.ne, h.not_gt]
  · have hc : compare32 a b = .equal := by rw [compare32, if_neg h.not_lt, if_pos h]
    simp [hc, h]
  · have hc : compare32 a b = .greater := by rw [compare32, if_neg h.not_gt, if_neg h.ne']
    simp [hc, h, h.ne', h.not_gt]

/-- Settles O24, by `compare32_iff` in both orders of the operands. -/
theorem compareIsSigned : Obligations.CompareIsSigned := by
  intro a b
  obtain ⟨hl, he, hg⟩ := compare32_iff a b
  obtain ⟨-, -, hg'⟩ := compare32_iff b a
  rw [BitVec.slt_iff_toInt_lt, BitVec.slt_iff_toInt_lt, ← BitVec.toInt_inj]
  exact ⟨hl, he, hg, hl.trans hg'.symm⟩

/-- SW reads back what its own number writes (R28). -/
theorem CondCode.ofS32_toS32 (c : CondCode) : CondCode.ofS32 c.toS32 = c := by
  cases c <;> decide

/-- Settles O21: the numeric view is evaluated on the three codes, and the sign of a value decides what it writes. -/
theorem swNumericView : Obligations.SwNumericView := by
  refine ⟨by decide, by decide, by decide, fun v => ⟨fun h => ?_, fun h => ?_, fun h => ?_⟩, CondCode.ofS32_toS32⟩
  · rw [CondCode.ofS32, if_pos h]
  · rw [CondCode.ofS32, if_neg (by omega), if_pos h]
  · rw [CondCode.ofS32, if_neg (by omega), if_neg (by omega)]

/-! ### Words in memory -/

section

variable {size : Nat} {m m' : Memory} {a : Int} {v : S32}

/-- A word is its three bytes put together (R52, R56). -/
theorem word24_parts (w : Word24) : w.extractLsb' 16 8 ++ w.extractLsb' 8 8 ++ w.extractLsb' 0 8 = w := by
  rw [BitVec.extractLsb'_append_extractLsb'_eq_extractLsb' (start₂ := 16) (start₁ := 8) (len₁ := 8) rfl,
    BitVec.extractLsb'_append_extractLsb'_eq_extractLsb' (start₂ := 8) (start₁ := 0) (len₁ := 8) rfl]
  exact BitVec.extractLsb'_eq_self

/-- A word written reads back (R52, R56). -/
theorem Memory.word_writeWord {a : Nat} (w : Word24) (hm : m.wf size = true) (ha : a + 2 < size) :
    (m.writeWord a w).word a = w := by
  obtain ⟨hi, mid, lo⟩ := Memory.read_writeWord w hm ha
  rw [Memory.word, hi, mid, lo, word24_parts]

theorem memReadWord_of_inRange (h : 0 ≤ a ∧ a + 2 < size) : memReadWord size m a = .ok (m.word a.toNat) := by
  obtain ⟨-, he⟩ | ⟨hn, -⟩ := memReadWord_cases size m a
  · exact he
  · exact absurd h hn

theorem memReadWord_of_outOfRange (h : ¬(0 ≤ a ∧ a + 2 < size)) : memReadWord size m a = .error .outOfBounds := by
  obtain ⟨hr, -⟩ | ⟨-, he⟩ := memReadWord_cases size m a
  · exact absurd hr h
  · exact he

theorem byteRead_of_inRange (h : 0 ≤ a ∧ a < size) : byteRead size m a = m.read a.toNat := by
  obtain ⟨-, he⟩ | ⟨hn, -⟩ := byteRead_cases size m a
  · exact he
  · exact absurd h hn

/-- A word write that raises nothing is in range and writes `low24` (R56). -/
theorem memWriteWord_ok (h : memWriteWord size m a v = .ok m') :
    (0 ≤ a ∧ a + 2 < size) ∧ m' = m.writeWord a.toNat (low24 v) := by
  obtain ⟨hr, he⟩ | ⟨-, he⟩ := memWriteWord_cases size m a v
  · cases he.symm.trans h
    exact ⟨hr, rfl⟩
  · cases he.symm.trans h

/-- After a word write the checked word read gives the low 24 bits (R62). -/
theorem memReadWord_memWriteWord (hm : m.wf size = true) (h : memWriteWord size m a v = .ok m') :
    memReadWord size m' a = .ok (v.setWidth 24) := by
  obtain ⟨hr, rfl⟩ := memWriteWord_ok h
  rw [memReadWord_of_inRange hr, Memory.word_writeWord _ hm (by omega)]
  rfl

/-- After a word write the lenient byte reads give the three bytes of the low 24 bits (R62). -/
theorem byteRead_memWriteWord (hm : m.wf size = true) (h : memWriteWord size m a v = .ok m') :
    byteRead size m' a = v.extractLsb' 16 8 ∧ byteRead size m' (a + 1) = v.extractLsb' 8 8 ∧
      byteRead size m' (a + 2) = v.extractLsb' 0 8 := by
  obtain ⟨hr, rfl⟩ := memWriteWord_ok h
  obtain ⟨hi, mid, lo⟩ := Memory.read_writeWord (low24 v) hm (a := a.toNat) (by omega)
  have h1 : (a + 1).toNat = a.toNat + 1 := by omega
  have h2 : (a + 2).toNat = a.toNat + 2 := by omega
  rw [byteRead_of_inRange (by omega), byteRead_of_inRange (by omega), byteRead_of_inRange (by omega), h1, h2, hi, mid,
    lo, low24_byte v (by decide), low24_byte v (by decide), low24_byte v (by decide)]
  exact ⟨rfl, rfl, rfl⟩

end

/-- Settles O30: the round trip at any address, and the word-index accessors as that at 3w. -/
theorem wordRoundTripAndMixedWidths : Obligations.WordRoundTripAndMixedWidths := by
  refine ⟨fun size m m' a v hm h => ⟨memReadWord_memWriteWord hm h, byteRead_memWriteWord hm h⟩,
    fun words m w v hm h0 h1 => ?_, fun words m w v hw => ?_⟩
  · obtain ⟨-, he⟩ | ⟨hn, -⟩ := memWriteWord_cases (3 * words) m (3 * w) v
    · exact ⟨_, he, memReadWord_memWriteWord hm he⟩
    · omega
  · obtain ⟨hr, -⟩ | ⟨hn, he⟩ := memWriteWord_cases (3 * words) m (3 * w) v
    · omega
    · exact ⟨he, memReadWord_of_outOfRange hn⟩

/-! ### The target and the operand -/

section

variable {s : State} {m : Addressing}

/-- With an address the instruction is of format 4 (R80). -/
theorem length_of_addr {a : Nat} (h : m.field = .addr a) : m.length = 4 := by
  simp only [Addressing.length, h]

/-- The index is added modulo 2^32 (R133). -/
theorem target_eq (s : State) (m : Addressing) :
    target s m = wrap32 (baseAddress s m) + if m.x then s.x else 0#32 := by
  rw [target, wrap32_add]
  cases m.x
  · rfl
  · exact congrArg _ (wrap32_toInt s.x)

/-- The target of format 3 (R131, R133). -/
theorem target_of_disp {d : Int} (h : m.field = .disp d) :
    target s m = (if m.p then s.pc + wrap32 d else if m.b then s.b + wrap32 d else wrap32 d) +
      if m.x then s.x else 0#32 := by
  rw [target_eq, baseAddress_of_disp h, apply_ite wrap32, apply_ite wrap32, wrap32_add, wrap32_add, wrap32_toInt,
    wrap32_toInt]

/-- The target of format 4, whatever b and p (R132, R133). -/
theorem target_of_addr {a : Nat} (h : m.field = .addr a) :
    target s m = BitVec.ofNat 32 a + if m.x then s.x else 0#32 := by
  have hb : baseAddress s m = a := by simp only [baseAddress, h]
  rw [target_eq, hb, wrap32_natCast]

theorem operand_of_immediate (h : modeOf m = .immediate) : operand s m = .ok (target s m) := by
  simp only [operand, h]

theorem operand_of_simple (h : modeOf m = .simple) :
    operand s m = memOperand s.memBytes s.mem (target s m).toInt := by
  simp only [operand, h]

theorem operand_of_indirect (h : modeOf m = .indirect) :
    operand s m = pointedOperand s.memBytes s.mem (memReadWord s.memBytes s.mem (target s m).toInt) := by
  simp only [operand, h]

/-- A pointer is a bind: its raise, or the word read it leads to (R137). -/
theorem pointedOperand_eq_bind (size : Nat) (mem : Memory) (e : Except HaltReason Word24) :
    pointedOperand size mem e = e.bind fun ptr => (memReadWord size mem ptr.toNat).map (·.setWidth 32) := by
  cases e <;> rfl

theorem modeOf_immediate (hn : m.n = false) (hi : m.i = true) : modeOf m = .immediate := by
  simp only [modeOf, hn, hi]

theorem modeOf_indirect (hn : m.n = true) (hi : m.i = false) : modeOf m = .indirect := by
  simp only [modeOf, hn, hi]

theorem modeOf_simple (h : m.n = m.i) : modeOf m = .simple := by
  cases hi : m.i <;> simp only [modeOf, h, hi]

theorem memOperand_of_inRange {size : Nat} {mem : Memory} {a : Int} (h : 0 ≤ a ∧ a + 2 < size) :
    memOperand size mem a = .ok ((mem.word a.toNat).setWidth 32) := by
  rw [memOperand, memReadWord_of_inRange h]
  rfl

theorem memOperand_of_outOfRange {size : Nat} {mem : Memory} {a : Int} (h : ¬(0 ≤ a ∧ a + 2 < size)) :
    memOperand size mem a = .error .outOfBounds := by
  rw [memOperand, memReadWord_of_outOfRange h]
  rfl

/-- A readable operand resolves to its value, mode by mode (R137). -/
theorem operand_of_readable (h : OperandReadable s m) : operand (advance s m.length) m = .ok (operandValue s m) := by
  cases hm : modeOf m with
  | immediate =>
    rw [operand_of_immediate hm]
    simp only [operandValue, hm]
  | simple =>
    simp only [OperandReadable, hm] at h
    rw [operand_of_simple hm]
    simp only [operandValue, hm]
    exact memOperand_of_inRange h
  | indirect =>
    simp only [OperandReadable, hm] at h
    obtain ⟨hptr, hword⟩ := h
    rw [operand_of_indirect hm]
    simp only [operandValue, hm]
    exact (congrArg (pointedOperand s.memBytes s.mem) (memReadWord_of_inRange hptr)).trans
      (memOperand_of_inRange ⟨Int.natCast_nonneg _, hword⟩)

/-- An operand that is not readable raises OutOfBounds, mode by mode (R137). -/
theorem operand_of_not_readable (h : ¬OperandReadable s m) :
    operand (advance s m.length) m = .error .outOfBounds := by
  cases hm : modeOf m with
  | immediate => exact absurd (by simp only [OperandReadable, hm]) h
  | simple =>
    simp only [OperandReadable, hm] at h
    rw [operand_of_simple hm]
    exact memOperand_of_outOfRange h
  | indirect =>
    simp only [OperandReadable, hm] at h
    rw [operand_of_indirect hm]
    obtain ⟨hr, he⟩ | ⟨-, he⟩ := memReadWord_cases s.memBytes s.mem (effective s m)
    · have hw : ¬pointer s m + 2 < s.memBytes := fun hw => h ⟨hr, hw⟩
      exact (congrArg (pointedOperand s.memBytes s.mem) he).trans (memOperand_of_outOfRange fun hp => hw hp.2)
    · exact congrArg (pointedOperand s.memBytes s.mem) he

end

/-- Settles O32, by `target_of_disp` and `target_of_addr` at the advanced state. -/
theorem targetFormation : Obligations.TargetFormation := by
  refine fun s m => ⟨fun d h => ?_, fun a h => target_of_addr h⟩
  rw [target_of_disp h, length_of_disp h, advance_pc]
  rfl

/-- Settles O33: the mode by n and i, the operand by the mode, and its checks by `operand_of_readable` and
`operand_of_not_readable`. -/
theorem operandResolution : Obligations.OperandResolution := by
  refine ⟨fun m => ⟨modeOf_immediate, modeOf_indirect, modeOf_simple⟩, fun s m hn hi => ?_, fun s m h => ?_,
    fun s m hn hi => ?_, fun _ _ => operand_of_readable, fun _ _ => operand_of_not_readable, fun _ _ => rfl⟩
  · exact operand_of_immediate (modeOf_immediate hn hi)
  · exact operand_of_simple (modeOf_simple h)
  · rw [operand_of_indirect (modeOf_indirect hn hi), pointedOperand_eq_bind]

end Sys2Proof.Machine

/-! PROOF. What each instruction of formats 1, 3 and 4 does (41_rsub.md, 43_load_store.md, 44_arith_compare.md,
45_control_transfer.md): its whole next state, or its halt. -/

namespace Sys2Proof.Machine

variable {s : State} {m : Addressing}

/-! ### The shapes that complete and the shapes that halt -/

theorem done_eq (s : State) (n : Nat) : done s n = (advance s n).setEngine .running := by
  rw [advance_eq]
  rfl

/-- With a readable operand an instruction ends as its effect on the operand's value does (R209). -/
theorem withOperand_of_readable (h : OperandReadable s m) (f : State → S32 → CycleEnd) :
    withOperand m s f = commit s (f { s with pc := s.pc + BitVec.ofNat 32 m.length } (operandValue s m)) := by
  rw [← advance_eq, withOperand, operand_of_readable h, bind_ok]

/-- A readable operand lets an effect without a raise of its own complete (R209). -/
theorem withOperand_completes (h : OperandReadable s m) (g : State → S32 → State) :
    withOperand m s (fun s1 v => .completes (g s1 v)) =
      .next ((g { s with pc := s.pc + BitVec.ofNat 32 m.length } (operandValue s m)).setEngine .running) :=
  withOperand_of_readable h _

/-- An operand that is not readable halts with OutOfBounds (R209). -/
theorem withOperand_halts (h : ¬OperandReadable s m) (f : State → S32 → CycleEnd) :
    withOperand m s f = .next (haltedAt s .outOfBounds) := by
  rw [withOperand, operand_of_not_readable h, bind_error]
  rfl

/-- An effect on the target without a raise of its own completes (R138). -/
theorem withTarget_completes (m : Addressing) (s : State) (g : State → S32 → State) :
    withTarget m s (fun s1 t => .completes (g s1 t)) =
      .next ((g { s with pc := s.pc + BitVec.ofNat 32 m.length }
        (target (advance s m.length) m)).setEngine .running) := by
  rw [withTarget_eq, ← advance_eq, commit_completes]

/-- An unreadable operand halts every instruction that uses one (R209). -/
theorem exec_halts_of_not_readable {mk : Addressing → Instr}
    (hmk : mk ∈ [Instr.lda, .ldx, .ldl, .ldb, .lds, .ldt, .add, .sub, .mul, .div, .and, .or, .comp, .tix])
    (h : ¬OperandReadable s m) : exec (mk m) s = .next (haltedAt s .outOfBounds) := by
  fin_cases hmk <;> unfold exec <;> exact withOperand_halts h _

/-! ### Loads and stores -/

/-- An operand from memory is a word, zero-extended (R55). -/
theorem operandValue_lt (h : modeOf m ≠ .immediate) : (operandValue s m).toNat < 2 ^ 24 := by
  have hz (w : Word24) : (w.setWidth 32).toNat < 2 ^ 24 := by
    rw [BitVec.toNat_setWidth_of_le (by decide)]
    exact w.isLt
  cases hm : modeOf m with
  | immediate => exact absurd hm h
  | simple =>
    simp only [operandValue, hm]
    exact hz _
  | indirect =>
    simp only [operandValue, hm]
    exact hz _

/-- Settles O35: a readable operand is written to the register, and an unreadable one halts. -/
theorem wordLoads : Obligations.WordLoads := by
  refine ⟨fun s m h => ⟨withOperand_completes h State.setA, withOperand_completes h State.setX,
    withOperand_completes h State.setL, withOperand_completes h State.setB, withOperand_completes h State.setS,
    withOperand_completes h State.setT⟩, fun s m h mk hmk => ?_, fun _ _ => operandValue_lt⟩
  exact exec_halts_of_not_readable (List.mem_append_left _ hmk) h

/-- A word store in range writes the low 24 bits of its register at the target (R219). -/
theorem storeWord_completes (h : 0 ≤ effective s m ∧ effective s m + 2 < s.memBytes) (v : State → S32) :
    storeWord m s v = .next { done s m.length with
      mem := s.mem.writeWord (effective s m).toNat ((v (advance s m.length)).setWidth 24) } := by
  obtain ⟨-, he⟩ | ⟨hn, -⟩ := storeWord_cases m s v
  · rw [he, done_eq]
    rfl
  · exact absurd h hn

/-- A word store out of range halts with OutOfBounds (R219). -/
theorem storeWord_halts (h : ¬(0 ≤ effective s m ∧ effective s m + 2 < s.memBytes)) (v : State → S32) :
    storeWord m s v = .next (haltedAt s .outOfBounds) := by
  obtain ⟨hr, -⟩ | ⟨-, he⟩ := storeWord_cases m s v
  · exact absurd hr h
  · exact he

/-- Settles O36: the store of the six by its range, and n and i are no part of the target. -/
theorem wordStores : Obligations.WordStores := by
  refine ⟨fun s m h0 h1 => ?_, fun s m h mk hmk => ?_, fun _ _ _ _ => rfl⟩
  · have hs := storeWord_completes ⟨h0, h1⟩
    exact ⟨hs (·.a), hs (·.x), hs (·.l), hs (·.b), hs (·.s), hs (·.t)⟩
  · fin_cases hmk <;> unfold exec <;> exact storeWord_halts (by omega) _

/-- A register whose low byte is replaced keeps its high 24 bits (R230, D32). -/
theorem replaceLowByte_high (a : S32) (b : Byte) :
    ((a &&& 0xFFFFFF00#32) ||| b.setWidth 32).extractLsb' 8 24 = a.extractLsb' 8 24 := by
  have hmask : ∀ k < 24, (0xFFFFFF00#32).getLsbD (8 + k) = true := by decide
  ext k hk
  simp [hmask k hk]

/-- A register whose low byte is replaced has that byte (R230). -/
theorem replaceLowByte_low (a : S32) (b : Byte) :
    ((a &&& 0xFFFFFF00#32) ||| b.setWidth 32).extractLsb' 0 8 = b := by
  have hmask : ∀ (k : Nat) (hk : k < 8), (0xFFFFFF00#32)[k] = false := by decide
  ext k hk
  have hk' : k < 32 := by omega
  simp [hk, hk', hmask k hk]

/-- Settles O37: the low byte of A is replaced by the lenient byte read at the target. -/
theorem characterLoad : Obligations.CharacterLoad := by
  refine fun s m => ⟨_, withTarget_completes m s fun s1 t =>
    s1.setA ((s1.a &&& 0xFFFFFF00#32) ||| (byteRead s1.memBytes s1.mem t.toInt).setWidth 32),
    replaceLowByte_high _ _, (replaceLowByte_low _ _).trans ?_⟩
  obtain ⟨hr, he⟩ | ⟨hn, he⟩ := byteRead_cases s.memBytes s.mem (effective s m)
  · exact he.trans (if_pos hr).symm
  · exact he.trans (if_neg hn).symm

/-- STCH always completes, with the lenient byte write at the target (R231). -/
theorem exec_stch (s : State) (m : Addressing) : exec (.stch m) s =
    .next { done s m.length with mem := byteWrite s.memBytes s.mem (effective s m) (s.a.extractLsb' 0 8) } := by
  have hlow : low8 s.a = s.a.extractLsb' 0 8 := BitVec.setWidth_eq_extractLsb' (by decide)
  rw [← hlow]
  exact withTarget_completes m s fun s1 t => s1.setMem (byteWrite s1.memBytes s1.mem t.toInt (low8 s1.a))

/-- Settles O38, by the two cases of the lenient byte write. -/
theorem characterStore : Obligations.CharacterStore := by
  refine ⟨fun s m h0 h1 => ?_, fun s m h => ?_⟩
  · obtain ⟨-, he⟩ | ⟨hn, -⟩ := byteWrite_cases s.memBytes s.mem (effective s m) (s.a.extractLsb' 0 8)
    · rw [exec_stch, he]
    · exact absurd ⟨h0, h1⟩ hn
  · obtain ⟨hr, -⟩ | ⟨-, he⟩ := byteWrite_cases s.memBytes s.mem (effective s m) (s.a.extractLsb' 0 8)
    · omega
    · rw [exec_stch, he]
      rfl

/-! ### Arithmetic, logic and compare -/

/-- Settles O39: each result is the ALU primitive's, as the bit-vector operation it is. -/
theorem arithmeticAndLogic : Obligations.ArithmeticAndLogic := by
  refine ⟨fun s m h => ?_, fun s m h mk hmk => ?_⟩
  · rw [← aluAdd_eq, ← aluSub_eq, ← aluMul_eq]
    exact ⟨withOperand_completes h fun s1 v => s1.setA (aluAdd s1.a v),
      withOperand_completes h fun s1 v => s1.setA (aluSub s1.a v),
      withOperand_completes h fun s1 v => s1.setA (aluMul s1.a v),
      withOperand_completes h fun s1 v => s1.setA (aluAnd s1.a v),
      withOperand_completes h fun s1 v => s1.setA (aluOr s1.a v)⟩
  · refine exec_halts_of_not_readable ?_ h
    fin_cases hmk <;> simp

/-- With a readable operand DIV tests it for 0 before it divides (R243, R287). -/
theorem exec_div_of_readable (h : OperandReadable s m) : exec (.div m) s =
    commit s (if operandValue s m = 0#32 then .raises .divisionByZero
      else .completes (({ s with pc := s.pc + BitVec.ofNat 32 m.length } : State).setA
        (s.a.sdiv (operandValue s m)))) := by
  rw [← truncDiv_eq]
  exact withOperand_of_readable h fun s1 v =>
    if v = 0#32 then .raises .divisionByZero else .completes (s1.setA (truncDiv s1.a v))

/-- Settles O40: the operand's check comes before the test for 0 (`exec_div_of_readable`). -/
theorem divideAccumulator : Obligations.DivideAccumulator := by
  refine fun s m => ⟨fun h h0 => ?_, fun h h0 => ?_, exec_halts_of_not_readable (by simp)⟩
  · rw [exec_div_of_readable h, if_neg h0]
    rfl
  · rw [exec_div_of_readable h, if_pos h0]
    rfl

/-- Settles O41: the operand is resolved before X is incremented, and the comparison is with the new X. -/
theorem compareAndIndex : Obligations.CompareAndIndex := by
  refine ⟨fun s m h => ?_, fun s m h =>
    ⟨exec_halts_of_not_readable (by simp) h, exec_halts_of_not_readable (by simp) h⟩⟩
  rw [← aluInc_eq]
  exact ⟨withOperand_completes h fun s1 v => s1.setSw (compare32 s1.a v),
    withOperand_completes h fun s1 v => (s1.setX (aluInc s1.x)).setSw (compare32 (aluInc s1.x) v)⟩

/-! ### Control transfer -/

/-- A conditional jump completes with the target or the next instruction in PC (R261 to R263). -/
theorem jumpIf_completes (c : CondCode) (m : Addressing) (s : State) : jumpIf c m s = .next { done s m.length with
    pc := if s.sw = c then target (advance s m.length) m else s.pc + BitVec.ofNat 32 m.length } := by
  rw [jumpIf_eq, advance_pc]
  rfl

/-- No instruction is longer than 4 bytes or shorter than 3 in formats 3 and 4 (R80). -/
theorem length_eq_three_or_four (m : Addressing) : m.length = 3 ∨ m.length = 4 := by
  cases hf : m.field with
  | disp d => exact .inl (length_of_disp hf)
  | addr a => exact .inr (length_of_addr hf)

/-- From a PC that is not negative the next instruction's address is not 0 (R264). -/
theorem nextInstruction_ne_zero (m : Addressing) (h : 0 ≤ s.pc.toInt) :
    s.pc + BitVec.ofNat 32 m.length ≠ 0#32 := by
  have hlt : s.pc.toNat < 2 ^ 31 := by
    rw [BitVec.toInt_eq_toNat_cond] at h
    split at h <;> omega
  intro h0
  have h1 := congrArg BitVec.toNat h0
  rw [BitVec.toNat_add, BitVec.toNat_ofNat, BitVec.toNat_ofNat] at h1
  obtain hl | hl := length_eq_three_or_four m
  · omega
  · omega

/-- Settles O42: J and JSUB by their effects, the conditional jumps by the one they share. -/
theorem jumpsAndCall : Obligations.JumpsAndCall := fun s m =>
  ⟨withTarget_completes m s State.setPc, jumpIf_completes .equal m s, jumpIf_completes .greater m s,
    jumpIf_completes .less m s, withTarget_completes m s fun s1 t => (s1.setL s1.pc).setPc t,
    fun h _ => nextInstruction_ne_zero m h⟩

/-- Settles O43: every jump taken leaves PC at the target, where the next fetch halts (`fetchOutsideMemoryHalts`). -/
theorem jumpOutsideMemoryHaltsNext : Obligations.JumpOutsideMemoryHaltsNext := by
  intro s m i hout hi
  have hnext (t : State) (he : t.engine = .running) (hpc : t.pc = target (advance s m.length) m)
      (hc : t.config = s.config) :
      t.engine = .running ∧ t.pc.toInt = effective s m ∧ step t = .next (haltedAt t .outOfBounds) := by
    have hpc' : t.pc.toInt = effective s m := congrArg BitVec.toInt hpc
    have hsize : t.memBytes = s.memBytes := congrArg Config.memBytes hc
    exact ⟨he, hpc', fetchOutsideMemoryHalts t (by simp [isHalted, he]) (by rwa [hpc', hsize])⟩
  obtain ⟨hj, hjeq, hjgt, hjlt, hjsub, -⟩ := jumpsAndCall s m
  obtain rfl | rfl | ⟨rfl, hsw⟩ | ⟨rfl, hsw⟩ | ⟨rfl, hsw⟩ := hi
  · exact ⟨_, hj, hnext _ rfl rfl rfl⟩
  · exact ⟨_, hjsub, hnext _ rfl rfl rfl⟩
  · exact ⟨_, hjeq, hnext _ rfl (if_pos hsw) rfl⟩
  · exact ⟨_, hjgt, hnext _ rfl (if_pos hsw) rfl⟩
  · exact ⟨_, hjlt, hnext _ rfl (if_pos hsw) rfl⟩

/-- Settles O34: n and i are no part of the target, so the two sides are the same term. -/
theorem targetUsersIgnoreModeFlags : Obligations.TargetUsersIgnoreModeFlags := by
  intro mk hmk m n i s
  fin_cases hmk <;> rfl

/-- Settles O44, by `exec_rsub`, which has PC and the engine set from L. -/
theorem returnFromSubroutine : Obligations.ReturnFromSubroutine := by
  refine fun s => ⟨fun h => ?_, fun h => ?_⟩
  · rw [exec_rsub, if_neg h]
    rfl
  · rw [exec_rsub, if_pos h]
    simp [h, State.setPc, State.setEngine]

end Sys2Proof.Machine

/-! PROOF. What each format-2 instruction does (42_register_ops.md): its whole next state, or its halt. -/

namespace Sys2Proof.Machine

variable {s : State} {r1 r2 : BitVec 4} {p q : Reg}

/-! ### The shapes that complete and the shapes that halt -/

theorem withReg_of_lookup (hp : lookup r1 = .ok p) (f : State → Reg → CycleEnd) :
    withReg r1 s f = commit s (f { s with pc := s.pc + 2#32 } p) := by
  rw [withReg, hp, bind_ok, advance_eq]

theorem withRegs_of_lookup (hp : lookup r1 = .ok p) (hq : lookup r2 = .ok q) (f : State → Reg → Reg → CycleEnd) :
    withRegs r1 r2 s f = commit s (f { s with pc := s.pc + 2#32 } p q) := by
  rw [withRegs, hp, bind_ok, hq, bind_ok, advance_eq]

/-- A valid number lets an effect without a raise of its own complete (R195). -/
theorem withReg_completes (hp : lookup r1 = .ok p) (g : State → Reg → State) :
    withReg r1 s (fun s1 p => .completes (g s1 p)) = .next ((g { s with pc := s.pc + 2#32 } p).setEngine .running) :=
  withReg_of_lookup hp _

/-- Two valid numbers let an effect without a raise of its own complete (R195). -/
theorem withRegs_completes (hp : lookup r1 = .ok p) (hq : lookup r2 = .ok q) (g : State → Reg → Reg → State) :
    withRegs r1 r2 s (fun s1 p q => .completes (g s1 p q)) =
      .next ((g { s with pc := s.pc + 2#32 } p q).setEngine .running) :=
  withRegs_of_lookup hp hq _

theorem withReg_halts (h : InvalidNumber r1) (f : State → Reg → CycleEnd) :
    withReg r1 s f = .next (haltedAt s .invalidRegister) := by
  rw [withReg, lookup_of_invalidNumber h, bind_error]
  rfl

theorem withRegs_halts (h : InvalidNumber r1 ∨ InvalidNumber r2) (f : State → Reg → Reg → CycleEnd) :
    withRegs r1 r2 s f = .next (haltedAt s .invalidRegister) := by
  obtain ⟨p, q, hp, hq, -⟩ | ⟨-, he⟩ := withRegs_cases r1 r2 s f
  · obtain h | h := h
    · cases (lookup_of_invalidNumber h).symm.trans hp
    · cases (lookup_of_invalidNumber h).symm.trans hq
  · exact he

/-! ### The instructions -/

/-- Settles O46: each result is the ALU primitive's, as the bit-vector operation it is. -/
theorem registerArithmetic : Obligations.RegisterArithmetic := by
  intro s r1 r2 p q hp hq s1
  rw [← aluAdd_eq, ← aluSub_eq, ← aluMul_eq]
  exact ⟨withRegs_completes hp hq fun s1 p q => regWrite s1 q (aluAdd (regRead s1 q) (regRead s1 p)),
    withRegs_completes hp hq fun s1 p q => regWrite s1 q (aluSub (regRead s1 q) (regRead s1 p)),
    withRegs_completes hp hq fun s1 p q => regWrite s1 q (aluMul (regRead s1 q) (regRead s1 p))⟩

/-- With valid numbers DIVR tests its divisor for 0 before it divides (R183, R287). -/
theorem exec_divr_of_lookup (hp : lookup r1 = .ok p) (hq : lookup r2 = .ok q) :
    let s1 : State := { s with pc := s.pc + 2#32 }
    exec (.divr r1 r2) s = commit s (if regRead s1 p = 0#32 then .raises .divisionByZero
      else .completes (regWrite s1 q ((regRead s1 q).sdiv (regRead s1 p)))) := by
  intro s1
  rw [← truncDiv_eq]
  exact withRegs_of_lookup hp hq fun s1 p q => if regRead s1 p = 0#32 then .raises .divisionByZero
    else .completes (regWrite s1 q (truncDiv (regRead s1 q) (regRead s1 p)))

/-- Settles O47, by the two cases of the divisor in `exec_divr_of_lookup`. -/
theorem registerDivide : Obligations.RegisterDivide := by
  refine fun s r1 r2 p q hp hq => ⟨fun h0 => ?_, fun h0 => ?_⟩
  · rw [exec_divr_of_lookup hp hq, if_neg h0]
    rfl
  · rw [exec_divr_of_lookup hp hq, if_pos h0]
    rfl

/-- Settles O48: both complete for valid numbers, with the effect of each. -/
theorem registerMoveAndClear : Obligations.RegisterMoveAndClear := fun _ _ _ hp =>
  ⟨fun _ _ hq => withRegs_completes hp hq fun s1 p q => regWrite s1 q (regRead s1 p),
    withReg_completes hp fun s1 p => regWrite s1 p 0#32⟩

/-- Only X reads otherwise after a write of X. -/
theorem regRead_setX (s : State) (v : S32) (p : Reg) : regRead (s.setX v) p = if p = .x then v else regRead s p := by
  cases p <;> rfl

/-- Settles O49: the comparand of TIXR is read on the state whose X is incremented (`regRead_setX`). -/
theorem registerCompareAndIndex : Obligations.RegisterCompareAndIndex := by
  refine fun s r1 p hp => ⟨fun r2 q hq =>
    withRegs_completes hp hq fun s1 p q => s1.setSw (compare32 (regRead s1 p) (regRead s1 q)), ?_⟩
  rw [← regRead_setX, ← aluInc_eq]
  exact withReg_completes hp fun s1 p =>
    (s1.setX (aluInc s1.x)).setSw (compare32 (aluInc s1.x) (regRead (s1.setX (aluInc s1.x)) p))

/-- Settles O50: `aluShl_eq` and `aluSar_eq` at the count nibble plus 1. -/
theorem registerShift : Obligations.RegisterShift := by
  intro s r1 c p hp s1
  rw [← aluShl_eq, ← aluSar_eq]
  exact ⟨withReg_completes hp fun s1 p => regWrite s1 p (aluShl (regRead s1 p) (c.toNat + 1)),
    withReg_completes hp fun s1 p => regWrite s1 p (aluSar (regRead s1 p) (c.toNat + 1))⟩

/-- Settles O51: every number is looked up before the effect, so none of them takes part. -/
theorem invalidRegisterHalts : Obligations.InvalidRegisterHalts := by
  refine ⟨fun s r1 r2 h mk hmk => ?_, fun s r1 c h => ?_⟩
  · fin_cases hmk <;> unfold exec <;> exact withRegs_halts h _
  · unfold exec
    exact ⟨withReg_halts h _, withReg_halts h _, withReg_halts h _, withReg_halts h _⟩

/-- A numeric register written with what it reads stays as it was (R22). -/
theorem regWrite_regRead (s : State) (h : p ≠ .sw) : regWrite s p (regRead s p) = s := by
  cases p with
  | sw => exact absurd rfl h
  | a | x | l | b | s | t | pc => rfl

/-- Settles O52: the instructions' results at equal operands. -/
theorem sameRegisterOperands : Obligations.SameRegisterOperands := by
  intro s k p hk hp s1
  obtain ⟨hadd, hsub, -⟩ := registerArithmetic s k k p p hk hk
  obtain ⟨hdiv, hzero⟩ := registerDivide s k k p p hk hk
  obtain ⟨hrmo, -⟩ := registerMoveAndClear s k p hk
  refine ⟨?_, ?_, fun h0 => ?_, hzero, ?_⟩
  · rw [hadd, BitVec.two_mul]
  · rw [hsub, BitVec.sub_self]
  · rw [hdiv h0, BitVec.sdiv_self]
    simp [s1, h0]
  · rw [hrmo k p hk, regWrite_regRead _ hp]

end Sys2Proof.Machine

/-! PROOF. The fetch and the step (40_datapath.md), the engine and `run` (60_exceptions.md), and the host's operations
(70_reset_and_hazards.md). -/

namespace Sys2Proof.Machine

variable {s t : State}

/-! ### The step by what stands at PC -/

theorem step_of_halted (h : isHalted s = true) : step s = .next s := by
  obtain ⟨r, hr⟩ := isHalted_iff.mp h
  simp only [step, stepEngine, hr]

/-- Where the bytes at PC decode, the step executes that instruction (R120). -/
theorem step_of_decode_ok {i : Instr} {rest : List Byte} (h : isHalted s = false)
    (hd : decode s.config.opcodes (fetchWindow s) = .ok (i, rest)) : step s = exec i s := by
  obtain ⟨r, hr, -⟩ | ⟨-, i', rest', hi, hs⟩ | ⟨-, e, he, -⟩ := step_cases s
  · cases h.symm.trans (isHalted_iff.mpr ⟨r, hr⟩)
  · cases hd.symm.trans hi
    exact hs
  · cases hd.symm.trans he

/-- Of bytes in memory the first is at the address and the others are at the next. -/
theorem BytesAt.cons {size : Nat} {mem : Memory} {a : Int} {b : Byte} {bs : List Byte}
    (h : BytesAt size mem a (b :: bs)) :
    ((0 ≤ a ∧ a < size) ∧ mem.read a.toNat = b) ∧ BytesAt size mem (a + 1) bs := by
  refine ⟨?_, fun j hj => ?_⟩
  · have h0 := h 0 (Nat.succ_pos _)
    rw [Nat.cast_zero, add_zero] at h0
    exact h0
  · have hj' := h (j + 1) (Nat.succ_lt_succ hj)
    have hcast : a + (j + 1 : Nat) = a + 1 + j := by omega
    rw [hcast] at hj'
    exact hj'

/-- Bytes in memory from an address on are what a fetch there begins with (R121 to R124). -/
theorem fetchBytes_of_bytesAt {size : Nat} {mem : Memory} {a : Int} {bs : List Byte} {k : Nat}
    (h : BytesAt size mem a bs) (hk : bs.length ≤ k) : ∃ rest, fetchBytes size mem k a = bs ++ rest := by
  induction bs generalizing a k with
  | nil => exact ⟨_, rfl⟩
  | cons b bs ih =>
    cases k with
    | zero => simp at hk
    | succ k =>
      obtain ⟨⟨hr, hb⟩, htail⟩ := h.cons
      obtain ⟨rest, he⟩ := ih htail (by simpa using hk)
      exact ⟨rest, by rw [fetchBytes_cons k hr, hb, he, List.cons_append]⟩

/-- No instruction is encoded in more bytes than a fetch takes (R80). -/
theorem length_encode_le (t : OpcodeTable) (i : Instr) : (encode t i).length ≤ maxLength := by
  have hi : Laws.EncodedLength.Statement i := by
    cases ho : i.operands with
    | none => simp [Laws.EncodedLength.Statement, encode, Instr.length, ho, maxLength]
    | nibbles r1 r2 => exact Laws.EncodedLength.nibbles ho
    | addressing m => exact Laws.EncodedLength.addressing ho
  obtain ⟨hl, -, hle⟩ := hi
  rwa [hl]

/-- Settles O9, by `step_of_decode_ok`. -/
theorem stepRunsDecodedInstruction : Obligations.StepRunsDecodedInstruction := fun _ _ _ => step_of_decode_ok

/-- Settles O10: the fetch begins with the encoder's bytes, which decode to the instruction (`decode_encode`). -/
theorem stepRunsEncodedInstruction : Obligations.StepRunsEncodedInstruction := by
  intro s i hh hw hi hb
  obtain ⟨rest, hr⟩ := fetchBytes_of_bytesAt hb (length_encode_le _ i)
  have hd : decode s.config.opcodes (fetchWindow s) = .ok (i, rest) := by
    rw [fetchWindow, hr, decode_encode hw hi]
  exact step_of_decode_ok hh hd

/-! ### The fetch byte by byte -/

/-- The fetch reaches byte1 if PC + 1 is in memory (R123). -/
theorem fetchWindow_two (h0 : 0 ≤ s.pc.toInt) (h1 : s.pc.toInt + 1 < s.memBytes) :
    fetchWindow s = s.mem.read s.pc.toInt.toNat :: s.mem.read (s.pc.toInt.toNat + 1) ::
      fetchBytes s.memBytes s.mem 2 (s.pc.toInt + 2) := by
  have hn : (s.pc.toInt + 1).toNat = s.pc.toInt.toNat + 1 := by omega
  rw [fetchWindow_cons (by omega), fetchBytes_cons 2 (by omega), hn, add_assoc]
  rfl

/-- The fetch reaches byte2 if PC + 2 is in memory (R124). -/
theorem fetchWindow_three (h0 : 0 ≤ s.pc.toInt) (h2 : s.pc.toInt + 2 < s.memBytes) :
    fetchWindow s = s.mem.read s.pc.toInt.toNat :: s.mem.read (s.pc.toInt.toNat + 1) ::
      s.mem.read (s.pc.toInt.toNat + 2) :: fetchBytes s.memBytes s.mem 1 (s.pc.toInt + 3) := by
  have hn : (s.pc.toInt + 2).toNat = s.pc.toInt.toNat + 2 := by omega
  rw [fetchWindow_two h0 (by omega), fetchBytes_cons 1 (by omega), hn, add_assoc]
  rfl

/-- The fetch reaches byte3 if PC + 3 is in memory (R124). -/
theorem fetchWindow_four (h0 : 0 ≤ s.pc.toInt) (h3 : s.pc.toInt + 3 < s.memBytes) :
    fetchWindow s = [s.mem.read s.pc.toInt.toNat, s.mem.read (s.pc.toInt.toNat + 1),
      s.mem.read (s.pc.toInt.toNat + 2), s.mem.read (s.pc.toInt.toNat + 3)] := by
  have hn : (s.pc.toInt + 3).toNat = s.pc.toInt.toNat + 3 := by omega
  rw [fetchWindow_three h0 (by omega), fetchBytes_cons 0 (by omega), hn]
  rfl

/-- Settles O7: byte1 is the one byte after byte0 that the decoder asks for, and it is fetched or missing. -/
theorem formatTwoFetchesOneMoreByte : Obligations.FormatTwoFetchesOneMoreByte := by
  refine fun s row mk hh h0 h1 hr hs => ⟨fun hin => ?_, fun hout => ?_⟩
  · have hd := decode_of_format2 (rest := fetchBytes s.memBytes s.mem 2 (s.pc.toInt + 2))
      (s.mem.read (s.pc.toInt.toNat + 1)) hr hs
    exact step_of_decode_ok hh (by rw [fetchWindow_two h0 hin]; exact hd)
  · have hd := decode_of_format2_nil hr hs
    exact step_of_decode_error hh (by rw [fetchWindow_cons ⟨h0, h1⟩, fetchBytes_nil 3 (by omega)]; exact hd)

/-- With PC + 2 outside memory a fetch at PC reaches at most one byte after byte0 (R124). -/
theorem length_fetchBytes_lt_two (h : s.memBytes ≤ s.pc.toInt + 2) :
    (fetchBytes s.memBytes s.mem 3 (s.pc.toInt + 1)).length < 2 := by
  by_cases h1 : 0 ≤ s.pc.toInt + 1 ∧ s.pc.toInt + 1 < s.memBytes
  · rw [fetchBytes_cons 2 h1, fetchBytes_nil 2 (by omega)]
    simp
  · rw [fetchBytes_nil 3 h1]
    simp

/-- Settles O8: the bytes the fetch reaches, by how far memory goes on from PC, are the ones the decoder asks for. -/
theorem longFormatFetch : Obligations.LongFormatFetch := by
  intro s row mk hh h0 h1 hr hs b0 b1 b2 b3 m
  have hlong (bs : List Byte) : decode s.config.opcodes (b0 :: bs) = decodeLong mk b0 bs := decode_of_format34 hr hs
  have hshort (h2 : s.memBytes ≤ s.pc.toInt + 2) : step s = .next (haltedAt s .outOfBounds) := by
    have hd := (hlong _).trans (decodeLong_of_short mk (length_fetchBytes_lt_two h2))
    exact step_of_decode_error hh (by rw [fetchWindow_cons ⟨h0, h1⟩]; exact hd)
  refine ⟨hshort, fun h2 he => ?_, fun he h3 => ?_, fun he h3 => ?_⟩
  · have hd := (hlong (b1 :: b2 :: fetchBytes s.memBytes s.mem 1 (s.pc.toInt + 3))).trans
      (decodeLong_of_e_false mk b2 he)
    exact step_of_decode_ok hh (by rw [fetchWindow_three h0 h2]; exact hd)
  · by_cases h2 : s.memBytes ≤ s.pc.toInt + 2
    · exact hshort h2
    · have hd := (hlong _).trans (decodeLong_of_no_byte3 mk b2 he)
      exact step_of_decode_error hh (by rw [fetchWindow_three h0 (by omega), fetchBytes_nil 1 (by omega)]; exact hd)
  · have hd := (hlong [b1, b2, b3]).trans (decodeLong_of_e_true mk b2 b3 he)
    exact step_of_decode_ok hh (by rw [fetchWindow_four h0 h3]; exact hd)

/-! ### One turn of `run` -/

theorem isHalted_eq_false_iff : isHalted s = false ↔ s.engine = .idle ∨ s.engine = .running := by
  cases h : s.engine <;> simp [isHalted, h]

/-- A Halted engine ends `run` at once (R282). -/
theorem run_of_halted (c : Bool) (cs : List Bool) (h : isHalted s = true) :
    run (c :: cs) s = .returned (if c then hostCancel s else s) := by
  obtain ⟨r, hr⟩ := isHalted_iff.mp h
  cases c <;> simp [run, hr, hostCancel]

/-- A request ends `run` before the next step and is cleared (R292). -/
theorem run_of_cancel (c : Bool) (cs : List Bool) (h : isHalted s = false) (hc : c = true ∨ s.cancel = true) :
    run (c :: cs) s = .returned { s with cancel := false } := by
  have hengine : (if c then hostCancel s else s).engine = s.engine := by cases c <;> rfl
  have hcancel : (if c then hostCancel s else s).cancel = true := by
    cases c with
    | true => rfl
    | false => simpa using hc
  have hclear : (if c then hostCancel s else s).setCancel false = { s with cancel := false } := by cases c <;> rfl
  obtain he | he := isHalted_eq_false_iff.mp h
  · simp only [run, hengine, he, hcancel, if_true, hclear]
  · simp only [run, hengine, he, hcancel, if_true, hclear]

/-- Without a request a turn of `run` is one step (R282). -/
theorem run_of_step (cs : List Bool) (h : isHalted s = false) (hc : s.cancel = false) (hs : step s = .next t) :
    run (false :: cs) s = run cs t := by
  obtain he | he := isHalted_eq_false_iff.mp h
  · simp [run, he, hc, hs]
  · simp [run, he, hc, hs]

/-- Settles O12, by `step_of_halted` and `run_of_halted`. -/
theorem haltedEngineStays : Obligations.HaltedEngineStays := fun _ c cs h => ⟨step_of_halted h, run_of_halted c cs h⟩

/-- Settles O58, by `run_of_cancel`. -/
theorem cancellationReturns : Obligations.CancellationReturns := fun _ c cs => run_of_cancel c cs

/-- Settles O11: a step that is no stay executes an instruction (`exec_cases`) or halts in its fetch. -/
theorem engineStateMachine : Obligations.EngineStateMachine := by
  refine ⟨fun s cs h => ⟨step_of_halted h, run_of_halted false cs h⟩, fun s h => ?_, fun _ _ => rfl, fun _ => rfl,
    fun _ => rfl⟩
  obtain ⟨r, hr, -⟩ | ⟨-, i, rest, hd, he⟩ | ⟨-, e, -, he⟩ := step_cases s
  · cases h.symm.trans (isHalted_iff.mpr ⟨r, hr⟩)
  · obtain ⟨t, ht⟩ := exec_next i s
    refine ⟨t, he.trans ht, ?_⟩
    obtain ⟨rfl, hl, rfl⟩ | ⟨u, -, rfl⟩ | ⟨r, hr, rfl⟩ := exec_cases ht
    · exact .inr (.inl ⟨⟨rest, hd⟩, hl, rfl⟩)
    · exact .inl rfl
    · exact .inr (.inr ⟨r, hr, rfl⟩)
  · exact ⟨_, he, .inr (.inr ⟨_, decodeHalt_ne_returned e, rfl⟩)⟩

/-! ### `run` as repeated steps -/

/-- Every step gives a next state (R281). -/
theorem step_next (s : State) : ∃ t, step s = .next t := by
  obtain ⟨_, -, he⟩ | ⟨-, i, _, -, he⟩ | ⟨-, _, -, he⟩ := step_cases s
  · exact ⟨_, he⟩
  · exact he ▸ exec_next i s
  · exact ⟨_, he⟩

theorem coreRun_succ {n : Nat} {s1 : State} (h : step s = .next s1) :
    Host.Core.run Sys2Proof.core (n + 1) s = Host.Core.run Sys2Proof.core n s1 := by
  simp only [Host.Core.run, Sys2Proof.core, h]

/-- A Halted engine stays where it is, however many steps are taken (R283). -/
theorem coreRun_of_halted (n : Nat) (h : isHalted s = true) : Host.Core.run Sys2Proof.core n s = .next s := by
  induction n with
  | zero => rfl
  | succ n ih => rw [coreRun_succ (step_of_halted h), ih]

/-- Settles O57, by induction on the number of steps: each turn of `run` is the next step, which keeps the request
unset. -/
theorem runRepeatsStep : Obligations.RunRepeatsStep := by
  intro n
  induction n with
  | zero =>
    intro s t _ h
    cases h
    exact ⟨fun ht => run_of_halted false [] ht, fun _ => rfl⟩
  | succ n ih =>
    intro s t hc h
    cases hh : isHalted s with
    | true =>
      cases (coreRun_of_halted (n + 1) hh).symm.trans h
      exact ⟨fun _ => run_of_halted false _ hh, fun ht => by cases hh.symm.trans ht⟩
    | false =>
      obtain ⟨s1, h1⟩ := step_next s
      obtain ⟨-, hcancel⟩ := step_keeps_config_cancel h1
      obtain ⟨hret, hstill⟩ := ih s1 t (hcancel.trans hc) ((coreRun_succ h1).symm.trans h)
      exact ⟨fun ht => (run_of_step _ hh hc h1).trans (hret ht), fun ht => (run_of_step _ hh hc h1).trans (hstill ht)⟩

/-! ### The invariant at reset and over the host's operations -/

theorem stateInv_initial {c : Config} (h : c.opcodes.wf = true) : StateInv (State.initial c) :=
  ⟨h, rfl, fun he => by cases he⟩

/-- A turn of `run` returns with nothing changed but the request, or goes on from the next state of a step (R282). -/
theorem run_cons_cases (c : Bool) (cs : List Bool) (s : State) :
    (∃ b, run (c :: cs) s = .returned (s.setCancel b)) ∨ ∃ t, step s = .next t ∧ run (c :: cs) s = run cs t := by
  cases hh : isHalted s with
  | true =>
    rw [run_of_halted c cs hh]
    cases c
    · exact .inl ⟨s.cancel, rfl⟩
    · exact .inl ⟨true, rfl⟩
  | false =>
    by_cases hc : c = true ∨ s.cancel = true
    · exact .inl ⟨false, run_of_cancel c cs hh hc⟩
    · obtain ⟨t, ht⟩ := step_next s
      simp only [not_or, Bool.not_eq_true] at hc
      obtain ⟨rfl, hc⟩ := hc
      exact .inr ⟨t, ht, run_of_step cs hh hc ht⟩

/-- `run` keeps the invariant and the parameters, by induction on its turns. -/
theorem run_keeps_inv (cs : List Bool) (hs : StateInv s) (h : run cs s = .returned t ∨ run cs s = .stillRunning t) :
    StateInv t ∧ t.config = s.config := by
  induction cs generalizing s with
  | nil =>
    obtain h | h := h
    · cases h
    · cases h
      exact ⟨hs, rfl⟩
  | cons c cs ih =>
    obtain ⟨b, hb⟩ | ⟨s1, h1, hb⟩ := run_cons_cases c cs s
    · obtain h | h := h
      · cases hb.symm.trans h
        exact ⟨hs, rfl⟩
      · cases hb.symm.trans h
    · obtain ⟨hs1, hc1⟩ := stepKeepsInv s s1 hs h1
      obtain ⟨ht, hct⟩ := ih hs1 (hb ▸ h)
      exact ⟨ht, hct.trans hc1⟩

/-- Settles O14: nothing is listed in memory and the engine is Idle, with the default table as with every other. -/
theorem resetMeetsInv : Obligations.ResetMeetsInv :=
  ⟨fun _ => stateInv_initial, stateInv_initial Config.default_wf, by decide⟩

/-- Settles O15: `load` writes bytes and leaves Idle, `reset` is the state at construction, a request is no part of the
invariant, and `run` is its steps. -/
theorem hostOperationsKeepInv : Obligations.HostOperationsKeepInv := by
  intro s hs
  obtain ⟨ht, hm, -⟩ := id hs
  exact ⟨fun bytes => ⟨⟨ht, writeBytes_wf bytes hm, fun he => by cases he⟩, rfl⟩, ⟨stateInv_initial ht, rfl⟩,
    ⟨hs, rfl⟩, fun cs _ => run_keeps_inv cs hs⟩

/-! ### `load` and `reset` -/

/-- Bytes past the end of memory are dropped (R321). -/
theorem read_writeBytes_past_end {size k : Nat} {m : Memory} {a : Int} (vs : List Byte) (h : size ≤ k) :
    (writeBytes size m a vs).read k = m.read k := by
  induction vs generalizing m a with
  | nil => rfl
  | cons v vs ih =>
    rw [writeBytes, ih]
    obtain ⟨hr, he⟩ | ⟨-, he⟩ := byteWrite_cases size m a v
    · rw [he, Memory.read_write_other v (by omega)]
    · rw [he]

/-- Settles O56: the bytes loaded read back, the others are beyond the bytes or beyond memory, and `reset` is the state
at construction. -/
theorem hostLoadAndReset : Obligations.HostLoadAndReset := by
  refine ⟨fun s bytes hm => ⟨fun k hk hr => ?_, fun k hk => ?_, rfl, rfl⟩, fun _ => rfl,
    fun s => ⟨fun r => ?_, rfl, fun _ => rfl, rfl, rfl, rfl⟩⟩
  · simpa [loadBytes] using read_writeBytes (a := 0) bytes hm hk (by omega)
  · obtain hk | hk := hk
    · exact read_writeBytes_other bytes (by omega)
    · exact read_writeBytes_past_end bytes hk
  · cases r with
    | sw => exact (by decide : CondCode.equal.toS32 = 0#32)
    | a | x | l | b | s | t | pc => rfl

end Sys2Proof.Machine

/-! PROOF. What each instruction changes and leaves unchanged (10_state.md, 20_memory.md): the writers of the registers,
the frames, the control state no instruction sees, and where PC goes. -/

namespace Sys2Proof.Machine

variable {s t : State} {i : Instr} {m : Addressing} {r1 r2 : BitVec 4}

/-! ### The writers of the registers -/

/-- The instructions that change a register other than PC by their own rule (R23). -/
def writersOf : Reg → List Mnemonic
  | .a  => [.lda, .ldch, .add, .sub, .mul, .div, .and, .or]
  | .x  => [.ldx, .tix, .tixr]
  | .l  => [.ldl, .jsub]
  | .b  => [.ldb]
  | .s  => [.lds]
  | .t  => [.ldt]
  | .sw => [.comp, .compr, .tix, .tixr]
  | .pc => []

theorem mem_writersOf {r : Reg} {k : Mnemonic} (h : r ∈ writtenByMnemonic k) : k ∈ writersOf r := by
  revert h
  cases k with
  | _ => cases r <;> decide

/-- A register that an instruction may change has it among its writers, or is named by its destination number (R23). -/
theorem writer_of_mem_written {r : Reg} (h : r ∈ written i) : i.mnemonic ∈ writersOf r ∨ WritesByNumber i r :=
  (List.mem_append.mp h).imp mem_writersOf mem_writtenByNumber.mp

/-- Every numeric register reads back what is written to it (R22). -/
theorem regRead_regWrite (s : State) {r : Reg} (v : S32) (h : r ≠ .sw) : regRead (regWrite s r v) r = v := by
  cases r with
  | sw => exact absurd rfl h
  | a | x | l | b | s | t | pc => rfl

/-- Settles O17: a register that changed is not kept (`exec_keeps`), so the instruction is one of its writers. -/
theorem registerWriters : Obligations.RegisterWriters := by
  refine ⟨fun s r v => regRead_regWrite s v, fun s c => ⟨c.toS32, CondCode.ofS32_toS32 c⟩, fun i s t h => ?_⟩
  obtain ⟨ha, hx, hl, hb, hs, ht, hsw, -⟩ := exec_keeps h
  have hwriter {r : Reg} {p : Prop} (hkept : r ∉ written i → p) (hchanged : ¬p) :
      i.mnemonic ∈ writersOf r ∨ WritesByNumber i r :=
    writer_of_mem_written (by_contra fun hr => hchanged (hkept hr))
  exact ⟨hwriter ha, hwriter hx, hwriter hl, hwriter hb, hwriter hs, hwriter ht, hwriter hsw⟩

/-- Settles O19: of the three ends of an instruction only the completing one leaves the engine Running, with what it
staged. -/
theorem sequentialNextPc : Obligations.SequentialNextPc := by
  intro i s t hj hpc h hrun
  obtain ⟨-, -, rfl⟩ | ⟨u, hu, rfl⟩ | ⟨r, -, rfl⟩ := exec_cases h
  · cases hrun
  · exact hu.pc hj hpc
  · cases hrun

/-! ### The frames -/

/-- An instruction that is no store keeps every register that is not its own, and every byte of memory (R74). -/
theorem exec_frame (hi : i.mnemonic ∉ storing) (h : exec i s = .next t) :
    Keeps (written i) s t ∧ SameBytes s.mem t.mem :=
  ⟨exec_keeps h, fun k => by rw [exec_mem hi h]⟩

/-- Settles O53: in `exec_frame` the registers written are those the statement lists. -/
theorem nonStoringFrame : Obligations.NonStoringFrame := by
  refine fun s t m => ⟨fun p hp h => ?_, exec_frame (by simp [Instr.mnemonic, storing]), fun mk hmk h => ?_,
    exec_frame (by simp [Instr.mnemonic, storing]), exec_frame (by simp [Instr.mnemonic, storing])⟩
  · fin_cases hp <;> exact exec_frame (by simp [Instr.mnemonic, storing]) h
  · fin_cases hmk <;> exact exec_frame (by simp [Instr.mnemonic, storing]) h

/-- A word store changes at most the three bytes at its target (R219). -/
theorem storeWord_sameBytesOutside {v : State → S32} (h : storeWord m s v = .next t) :
    SameBytesOutside s.mem t.mem (effective s m) 3 := by
  obtain ⟨hr, he⟩ | ⟨-, he⟩ := storeWord_cases m s v
  · cases he.symm.trans h
    exact s.mem.writeWord_sameBytesOutside _ hr.1
  · cases he.symm.trans h
    exact fun _ _ => rfl

/-- Settles O54: no register is among those a store writes, and memory changes where its write does. -/
theorem storeFrame : Obligations.StoreFrame := by
  refine fun s t m => ⟨fun mk hmk h => ?_, fun h => ⟨exec_keeps h, ?_⟩⟩
  · fin_cases hmk <;> exact ⟨exec_keeps h, storeWord_sameBytesOutside h⟩
  · cases (exec_stch s m).symm.trans h
    exact byteWrite_sameBytesOutside _ _ _ _

/-- Settles O55: in `exec_frame` the register written is the one the destination number names, or SW, or X and SW. -/
theorem registerOperationFrame : Obligations.RegisterOperationFrame := by
  refine fun s t r1 r2 => ⟨fun mk hmk h => ?_, fun mk hmk h => ?_, exec_frame (by simp [Instr.mnemonic, storing]),
    exec_frame (by simp [Instr.mnemonic, storing]), exec_frame (by simp [Instr.mnemonic, storing])⟩
  · fin_cases hmk <;> exact exec_frame (by simp [Instr.mnemonic, storing]) h
  · fin_cases hmk <;> exact exec_frame (by simp [Instr.mnemonic, storing]) h

/-! ### The control state no instruction sees -/

section

variable {e : Engine} {c : Bool}

/-- The state with another engine state and another request for cancellation (R32 to R34). -/
def withControl (e : Engine) (c : Bool) (s : State) : State := (s.setEngine e).setCancel c

/-- The end of a cycle with a function applied to the staged state, if there is one. -/
def CycleEnd.mapStaged (f : State → State) : CycleEnd → CycleEnd
  | .completes u     => .completes (f u)
  | .stopsReturned u => .stopsReturned (f u)
  | .raises r        => .raises r

/-- The end of a step overwrites the engine state and keeps the request (R281). -/
theorem commit_withControl (k : CycleEnd) :
    commit (withControl e c s) (k.mapStaged (withControl e c)) = mapNext (·.setCancel c) (commit s k) := by
  cases k with
  | completes | stopsReturned | raises => rfl

theorem bind_mapStaged {α : Type} {f : State → State} (x : Except HaltReason α) {k k' : α → CycleEnd}
    (h : ∀ v, k' v = (k v).mapStaged f) : CycleEnd.bind x k' = (CycleEnd.bind x k).mapStaged f := by
  cases x with
  | ok v => exact h v
  | error r => rfl

@[simp] theorem regRead_withControl (r : Reg) : regRead (withControl e c s) r = regRead s r := by
  cases r <;> rfl

@[simp] theorem regWrite_withControl (r : Reg) (v : S32) :
    regWrite (withControl e c s) r v = withControl e c (regWrite s r v) := by
  cases r <;> rfl

/-- The operand is formed from registers, memory and the capacity alone (R137). -/
theorem withOperand_withControl {f : State → S32 → CycleEnd}
    (hf : ∀ u v, f (withControl e c u) v = (f u v).mapStaged (withControl e c)) :
    withOperand m (withControl e c s) f = mapNext (·.setCancel c) (withOperand m s f) :=
  (congrArg (commit _) (bind_mapStaged (operand (advance s m.length) m) (hf (advance s m.length)))).trans
    (commit_withControl (s := s) _)

/-- The target is formed from registers alone (R133). -/
theorem withTarget_withControl {f : State → S32 → CycleEnd}
    (hf : ∀ u v, f (withControl e c u) v = (f u v).mapStaged (withControl e c)) :
    withTarget m (withControl e c s) f = mapNext (·.setCancel c) (withTarget m s f) :=
  (congrArg (commit _) (hf (advance s m.length) (target (advance s m.length) m))).trans (commit_withControl (s := s) _)

theorem withReg_withControl {f : State → Reg → CycleEnd}
    (hf : ∀ u p, f (withControl e c u) p = (f u p).mapStaged (withControl e c)) :
    withReg r1 (withControl e c s) f = mapNext (·.setCancel c) (withReg r1 s f) :=
  (congrArg (commit _) (bind_mapStaged (lookup r1) (hf (advance s 2)))).trans (commit_withControl _)

theorem withRegs_withControl {f : State → Reg → Reg → CycleEnd}
    (hf : ∀ u p q, f (withControl e c u) p q = (f u p q).mapStaged (withControl e c)) :
    withRegs r1 r2 (withControl e c s) f = mapNext (·.setCancel c) (withRegs r1 r2 s f) :=
  (congrArg (commit _) (bind_mapStaged (lookup r1) fun p =>
    bind_mapStaged (lookup r2) (hf (advance s 2) p))).trans (commit_withControl _)

theorem storeWord_withControl {v : State → S32} (hv : ∀ u, v (withControl e c u) = v u) :
    storeWord m (withControl e c s) v = mapNext (·.setCancel c) (storeWord m s v) :=
  withTarget_withControl fun u t => by
    rw [hv]
    exact bind_mapStaged (memWriteWord u.memBytes u.mem t.toInt (v u)) fun _ => rfl

theorem jumpIf_withControl {k : CondCode} :
    jumpIf k m (withControl e c s) = mapNext (·.setCancel c) (jumpIf k m s) := by
  rw [jumpIf_eq, jumpIf_eq]
  rfl

theorem mapStaged_div (v : S32) (u : State) :
    (if v = 0#32 then CycleEnd.raises .divisionByZero else .completes (withControl e c u)) =
      (if v = 0#32 then CycleEnd.raises .divisionByZero else .completes u).mapStaged (withControl e c) := by
  split
  · rfl
  · rfl

/-- An instruction sees neither the engine state nor the request, and keeps the request (R32 to R34, R292). -/
theorem exec_withControl (i : Instr) (e : Engine) (c : Bool) (s : State) :
    exec i (withControl e c s) = mapNext (·.setCancel c) (exec i s) := by
  unfold exec
  cases i with
  | rsub => exact (exec_rsub _).trans (congrArg (mapNext (·.setCancel c)) (exec_rsub s)).symm
  | addr | subr | mulr | rmo =>
    exact withRegs_withControl fun _ _ _ => by simp [CycleEnd.mapStaged]
  | divr => exact withRegs_withControl fun u p q => by simpa using mapStaged_div (regRead u p) _
  | compr => exact withRegs_withControl fun _ _ _ => by simp only [regRead_withControl]; rfl
  | clear | shiftl | shiftr => exact withReg_withControl fun _ _ => by simp [CycleEnd.mapStaged]
  | tixr => exact withReg_withControl fun u p => by cases p <;> rfl
  | lda | ldx | ldl | ldb | lds | ldt | add | sub | mul | and | or | comp | tix =>
    exact withOperand_withControl fun _ _ => rfl
  | div => exact withOperand_withControl fun u v => mapStaged_div v (u.setA (truncDiv u.a v))
  | sta | stx | stl | stb | sts | stt => exact storeWord_withControl fun _ => rfl
  | ldch | stch | j | jsub => exact withTarget_withControl fun _ _ => rfl
  | jeq | jgt | jlt => exact jumpIf_withControl

end

/-- An instruction keeps the request, so what it gives with the request put back is what it gives. -/
theorem mapNext_setCancel_exec (i : Instr) (s : State) : mapNext (·.setCancel s.cancel) (exec i s) = exec i s := by
  obtain ⟨t, ht⟩ := exec_next i s
  obtain ⟨-, -, -, -, -, -, -, hc, -⟩ := exec_keeps ht
  rw [ht, ← hc]
  rfl

/-- The step looks at the engine state, which the request is no part of, and then only executes (R281, R292). -/
theorem step_setCancel (s : State) (c : Bool) : step (s.setCancel c) = mapNext (·.setCancel c) (step s) := by
  cases hh : isHalted s with
  | true =>
    rw [step_of_halted hh]
    exact step_of_halted (s := s.setCancel c) hh
  | false =>
    cases hd : decode s.config.opcodes (fetchWindow s) with
    | ok p =>
      rw [step_of_decode_ok hh hd]
      exact (step_of_decode_ok (s := s.setCancel c) hh hd).trans (exec_withControl p.1 s.engine c s)
    | error err =>
      rw [step_of_decode_error hh hd]
      exact step_of_decode_error (s := s.setCancel c) hh hd

/-- Settles O18: `exec_withControl` for either part of the control state alone, and `step_setCancel`. -/
theorem instructionsIgnoreControlState : Obligations.InstructionsIgnoreControlState :=
  ⟨fun i s e => (exec_withControl i e s.cancel s).trans (mapNext_setCancel_exec i s),
    fun i s c => exec_withControl i s.engine c s, step_setCancel⟩

end Sys2Proof.Machine

/-! PROOF. The bytes of the encoding contract (30_encoding.md) against the decoder and the target of the core. -/

namespace Sys2Proof.Machine

variable {t : OpcodeTable} {k : Mnemonic} {rest : List Byte}

/-! ### Formats 1 and 2 -/

/-- Format 2 decodes to its mnemonic and numbers, an unused or omitted r2 as 0 (R97). -/
theorem decode_asmFormat2 {mk : BitVec 4 → BitVec 4 → Instr} (hw : t.wf = true) (hs : k.shape = .format2 mk)
    (r1 : BitVec 4) (r2 : Option (BitVec 4)) :
    ∃ i, decode t (asmFormat2 t k r1 r2 ++ rest) = .ok (i, rest) ∧ i.mnemonic = k ∧
      i.operands = .nibbles r1 (if k = .clear ∨ k = .tixr then 0#4 else r2.getD 0#4) := by
  refine ⟨mk r1 (r2.getD 0#4), ?_, Mnemonic.spec_of_format2 hs r1 (r2.getD 0#4)⟩
  have hd := decode_of_format2 (rest := rest) (r1 ++ r2.getD 0#4) (rowOfClass_opcodeOf hw k) hs
  rwa [nibbles_hi, nibbles_lo] at hd

/-! ### Formats 3 and 4 -/

theorem exists_shape_of_isLong (h : isLong k.shape = true) : ∃ mk, k.shape = .format34 mk := by
  cases hs : k.shape with
  | format34 mk => exact ⟨mk, rfl⟩
  | format1 | format2 =>
    rw [hs] at h
    cases h

/-- An opcode byte has its low two bits, n and i, at 0 (R85). -/
theorem opcodeOf_low_bits (t : OpcodeTable) (k : Mnemonic) :
    (opcodeOf t k).getLsbD 1 = false ∧ (opcodeOf t k).getLsbD 0 = false := by
  have hc : ∀ c : BitVec 6, (opcodeByte c).getLsbD 1 = false ∧ (opcodeByte c).getLsbD 0 = false := by decide
  unfold opcodeOf
  split
  · exact hc _
  · decide

/-- Addressing in simple mode with n = i = x = 0, as the encoding contract emits it (R98, R99). -/
def simpleAddressing (b p : Bool) (f : AddrField) : Addressing := ⟨false, false, false, b, p, f⟩

/-- byte1 of the encoding contract is the encoder's, for each of its three choices of flags (R98, R99). -/
theorem encodeByte1_simpleAddressing (f : AddrField) (top : BitVec 4) :
    encodeByte1 (simpleAddressing false true f) false top = 0x20#8 ||| top.setWidth 8 ∧
      encodeByte1 (simpleAddressing true false f) false top = 0x40#8 ||| top.setWidth 8 ∧
      encodeByte1 (simpleAddressing false false f) true top = 0x10#8 ||| top.setWidth 8 := by
  simp only [encodeByte1, simpleAddressing]
  revert top
  decide

theorem asmFormat3Bytes_pcRelative (t : OpcodeTable) (k : Mnemonic) (d : Int) :
    asmFormat3Bytes t k 0x20#8 d = opcodeOf t k :: encodeField (simpleAddressing false true (.disp d)) := by
  rw [encodeField_of_disp rfl, (encodeByte1_simpleAddressing _ _).1]
  rfl

theorem asmFormat3Bytes_baseRelative (t : OpcodeTable) (k : Mnemonic) (d : Int) :
    asmFormat3Bytes t k 0x40#8 d = opcodeOf t k :: encodeField (simpleAddressing true false (.disp d)) := by
  rw [encodeField_of_disp rfl, (encodeByte1_simpleAddressing _ _).2.1]
  rfl

/-- An opcode byte with the field of a simple addressing decodes to the mnemonic with that addressing (R98, R99). -/
theorem decode_simpleAddressing (hw : t.wf = true) (hk : isLong k.shape = true) {b p : Bool} {f : AddrField}
    (hf : f.wellFormed = true) :
    ∃ i, decode t (opcodeOf t k :: encodeField (simpleAddressing b p f) ++ rest) = .ok (i, rest) ∧ i.mnemonic = k ∧
      i.operands = .addressing (simpleAddressing b p f) := by
  obtain ⟨mk, hs⟩ := exists_shape_of_isLong hk
  obtain ⟨hn, hi⟩ := opcodeOf_low_bits t k
  refine ⟨mk (simpleAddressing b p f), ?_, Mnemonic.spec_of_format34 hs _⟩
  rw [List.cons_append, decode_of_format34 (rowOfClass_opcodeOf hw k) hs]
  exact decodeLong_encodeField mk hn hi hf

/-- Format 3 is emitted PC-relative with a displacement in range, or base-relative with one in [0, 2047] (R98). -/
theorem asmFormat3_ok {lc tgt : Int} {base : Option Int} {bytes : List Byte}
    (h : asmFormat3 t k lc tgt base = .ok bytes) :
    ∃ d : Int, (-2048 ≤ d ∧ d ≤ 2047) ∧
      ((d = tgt - (lc + 3) ∧ bytes = opcodeOf t k :: encodeField (simpleAddressing false true (.disp d))) ∨
        ∃ v, base = some v ∧ d = tgt - v ∧
          bytes = opcodeOf t k :: encodeField (simpleAddressing true false (.disp d))) := by
  unfold asmFormat3 at h
  split at h
  next hr =>
    cases h
    exact ⟨_, hr, .inl ⟨rfl, asmFormat3Bytes_pcRelative ..⟩⟩
  next =>
    cases base with
    | none => cases h
    | some v =>
      simp only at h
      split at h
      next hr =>
        cases h
        exact ⟨_, ⟨by omega, hr.2⟩, .inr ⟨v, rfl, rfl, asmFormat3Bytes_baseRelative ..⟩⟩
      next => cases h

/-- The PC-relative displacement leads from the location counter to the target (R98, R131). -/
theorem target_pcRelative (s : State) (tgt : Int) :
    target (advance s 3) (simpleAddressing false true (.disp (tgt - (s.pc.toInt + 3)))) = wrap32 tgt := by
  rw [target_of_disp rfl, advance_pc, wrap32_sub, wrap32_add, wrap32_toInt]
  exact (BitVec.add_zero _).trans (add_sub_cancel (s.pc + 3#32) (wrap32 tgt))

/-- The base-relative displacement leads from the base that B holds to the target (R98, R131). -/
theorem target_baseRelative (s : State) (tgt : Int) :
    target (advance s 3) (simpleAddressing true false (.disp (tgt - s.b.toInt))) = wrap32 tgt := by
  rw [target_of_disp rfl, advance_b, wrap32_sub, wrap32_toInt]
  exact (BitVec.add_zero _).trans (add_sub_cancel s.b (wrap32 tgt))

/-- Settles O59: in either form the bytes are the encoder's for a displacement that leads to the target. -/
theorem assembledFormatThreeReachesTarget : Obligations.AssembledFormatThreeReachesTarget := by
  intro t k s tgt base bytes rest hw hk hbase h
  obtain ⟨d, hd, ⟨rfl, rfl⟩ | ⟨v, hv, rfl, rfl⟩⟩ := asmFormat3_ok h
  · obtain ⟨i, hi, hm, ho⟩ := decode_simpleAddressing (rest := rest) hw hk (AddrField.wellFormed_disp.mpr hd)
    exact ⟨rfl, i, _, hi, hm, ho, rfl, rfl, target_pcRelative s tgt⟩
  · obtain ⟨i, hi, hm, ho⟩ := decode_simpleAddressing (rest := rest) hw hk (AddrField.wellFormed_disp.mpr hd)
    obtain rfl := hbase v hv
    exact ⟨rfl, i, _, hi, hm, ho, rfl, rfl, target_baseRelative s tgt⟩

/-- Format 4 is emitted with the target as its 20-bit address (R99). -/
theorem asmFormat4_ok {tgt : Int} {bytes : List Byte} (h : asmFormat4 t k tgt = .ok bytes) :
    ∃ a : Nat, tgt = a ∧ a ≤ 1048575 ∧
      bytes = opcodeOf t k :: encodeField (simpleAddressing false false (.addr a)) := by
  unfold asmFormat4 at h
  split at h
  next hr =>
    obtain ⟨h0, h1⟩ := hr
    obtain ⟨a, rfl⟩ := Int.eq_ofNat_of_zero_le h0
    cases h
    refine ⟨a, rfl, by omega, ?_⟩
    rw [encodeField_of_addr rfl, (encodeByte1_simpleAddressing _ _).2.2, BitVec.ofInt_natCast]
  next => cases h

/-- A format-4 address is the target itself (R132). -/
theorem target_absolute (s : State) (a : Nat) :
    target s (simpleAddressing false false (.addr a)) = wrap32 a := by
  rw [target_of_addr rfl, wrap32_natCast]
  exact BitVec.add_zero _

/-- Settles O60: format 4 as format 3 in O59, format 2 by `decode_asmFormat2`, and RSUB by its row. -/
theorem assembledFormatFourReachesTarget : Obligations.AssembledFormatFourReachesTarget := by
  refine ⟨fun t k s tgt bytes rest hw hk h => ?_, fun t k r1 r2 rest hw hk => ?_, fun t k r1 rest hw hk => ⟨rfl, ?_⟩,
    fun t rest hw => decode_of_format1 (rowOfClass_opcodeOf hw .rsub) rfl, by decide⟩
  · obtain ⟨a, rfl, ha, rfl⟩ := asmFormat4_ok h
    obtain ⟨i, hi, hm, ho⟩ := decode_simpleAddressing (rest := rest) hw hk (AddrField.wellFormed_addr.mpr ha)
    exact ⟨rfl, i, _, hi, hm, ho, rfl, rfl, target_absolute _ a⟩
  · obtain ⟨mk, hs⟩ : ∃ mk, k.shape = .format2 mk := by fin_cases hk <;> exact ⟨_, rfl⟩
    have hused : ¬(k = .clear ∨ k = .tixr) := by rintro (rfl | rfl) <;> simp at hk
    have hd (r2 : Option (BitVec 4)) := decode_asmFormat2 (rest := rest) hw hs r1 r2
    simp only [if_neg hused] at hd
    exact ⟨hd (some r2), hd none⟩
  · obtain ⟨mk, hs⟩ : ∃ mk, k.shape = .format2 mk := by fin_cases hk <;> exact ⟨_, rfl⟩
    have hd := decode_asmFormat2 (rest := rest) hw hs r1 none
    simpa using hd

end Sys2Proof.Machine
